-- ==== Sys2Proof/Word.lean ====
section
/-! DEFINITION. The widths of the block (spec 00_scope.md R8, R10): all values are unsigned. -/

namespace Sys2Proof

/-- One command word `cmd[95:0]` (R70). -/
abbrev CmdWord := BitVec 96

/-- One response word `resp[63:0]` (R74). -/
abbrev RespWord := BitVec 64

/-- Timestamps, durations and timing bounds (R8: TS_WIDTH, DUR_WIDTH). -/
abbrev U32 := BitVec 32

/-- The code of a transmission (R8: CODE_WIDTH). -/
abbrev U64 := BitVec 64

/-- The repeat count (R8: REPEAT_WIDTH) and the size register (R28). -/
abbrev U8 := BitVec 8

/-- A slot index 0..7 (R50). -/
abbrev SlotIdx := Fin 8

/-- A bit index 0..127 within a slot (R50). -/
abbrev BitIdx := Fin 128

/-- The word select of RD_WORD (R73). -/
abbrev WordSel := Fin 2

/-- The 128 bits of one slot (R29); bit `i` is storage position `i` (R52). -/
abbrev SlotBits := BitVec 128

end Sys2Proof
end

