-- ==== Sys2Proof/Syntax.lean ====
section
/-! DEFINITION. The command set (spec 30_encoding.md R71): one constructor per row of spec/opcode_table.json, with the
operands of R73. -/

namespace Sys2Proof

/-- The seven commands of the block (R3, R71). -/
inductive Instr where
  /-- EDGE t: one edge of the RX pin at timestamp `t` (R140). -/
  | edge (t : U32)
  /-- RD_ACQUIRE: the oldest unread frame, if any (R102). -/
  | rdAcquire
  /-- RD_BIT s, i (R103). -/
  | rdBit (sl : SlotIdx) (idx : BitIdx)
  /-- RD_WORD s, w (R104). -/
  | rdWord (sl : SlotIdx) (w : WordSel)
  /-- RD_RELEASE s (R105). -/
  | rdRelease (sl : SlotIdx)
  /-- TX_START code, rep (R170). -/
  | txStart (code : U64) (rep : U8)
  /-- STATUS (R190). -/
  | status
  deriving DecidableEq, Repr

end Sys2Proof
end

