-- ==== Sys2Proof/WellFormed.lean ====
section
/-! DEFINITION. Well-formedness of a command as it is written (spec 30_encoding.md R82): "An operand outside its range is
an assembly error, not a command." `AsmCommand` holds the operands as the numbers that were written, `wellFormed` checks
their ranges, and only a well-formed one is a command (`toInstr?`). -/

namespace Sys2Proof

/-- A command with its operands as written numbers (R82). -/
inductive AsmCommand where
  | edge (t : Nat)
  | rdAcquire
  | rdBit (s i : Nat)
  | rdWord (s w : Nat)
  | rdRelease (s : Nat)
  | txStart (code rep : Nat)
  | status
  deriving DecidableEq, Repr

namespace AsmCommand

/-- Every operand is in the range that R82 gives it. -/
def wellFormed : AsmCommand → Bool
  | .edge t => decide (t < 2 ^ 32)
  | .rdAcquire => true
  | .rdBit s i => decide (s < 8) && decide (i < 128)
  | .rdWord s w => decide (s < 8) && decide (w < 2)
  | .rdRelease s => decide (s < 8)
  | .txStart code rep => decide (code < 2 ^ 64) && decide (rep < 256)
  | .status => true

/-- The operand fields of R73, each number reduced to its field. Used on well-formed commands only. -/
def operands : AsmCommand → Instr
  | .edge t => .edge (BitVec.ofNat 32 t)
  | .rdAcquire => .rdAcquire
  | .rdBit s i => .rdBit (Fin.ofNat 8 s) (Fin.ofNat 128 i)
  | .rdWord s w => .rdWord (Fin.ofNat 8 s) (Fin.ofNat 2 w)
  | .rdRelease s => .rdRelease (Fin.ofNat 8 s)
  | .txStart code rep => .txStart (BitVec.ofNat 64 code) (BitVec.ofNat 8 rep)
  | .status => .status

/-- The command a written line stands for, or none: an assembly error (R82). -/
def toInstr? (a : AsmCommand) : Option Instr :=
  if a.wellFormed then some a.operands else none

/-- A command written out with its operands as numbers. -/
def ofInstr : Instr → AsmCommand
  | .edge t => .edge t.toNat
  | .rdAcquire => .rdAcquire
  | .rdBit s i => .rdBit s.val i.val
  | .rdWord s w => .rdWord s.val w.val
  | .rdRelease s => .rdRelease s.val
  | .txStart code rep => .txStart code.toNat rep.toNat
  | .status => .status

end AsmCommand

/-- A command is well-formed when its operands, written out, are in the ranges of R82. The operand types already bound
them, so this holds of every `Instr` (Laws/Decode.lean, `Instr.wellFormed_all`). -/
def Instr.wellFormed (i : Instr) : Bool := (AsmCommand.ofInstr i).wellFormed

end Sys2Proof
end

