-- ==== Sys2Proof/Decode.lean ====
section
/-! DEFINITION. The decoder, total on any 96-bit word, rejecting by name, and the encoder, both written from spec
30_encoding.md R70 to R77. -/

namespace Sys2Proof

/-- One row of the command table: `(cmd & mask) = match` (R72). -/
structure Row where
  mnemonic : String
  matchBits : CmdWord
  mask : CmdWord
  deriving DecidableEq, Repr

/-- A word matches a row when `(cmd & mask) = match` (R72). -/
def Row.accepts (r : Row) (w : CmdWord) : Bool := w &&& r.mask == r.matchBits

def rowEdge : Row := ⟨"EDGE", 0x000000000000000000000001#96, 0xFFFFFFFF00000000FFFFFFFF#96⟩
def rowRdAcquire : Row := ⟨"RD_ACQUIRE", 0x000000000000000000000002#96, 0xFFFFFFFFFFFFFFFFFFFFFFFF#96⟩
def rowRdBit : Row := ⟨"RD_BIT", 0x000000000000000000000003#96, 0xFFFFFFFFFFFFFFFFFFFF808F#96⟩
def rowRdWord : Row := ⟨"RD_WORD", 0x000000000000000000000004#96, 0xFFFFFFFFFFFFFFFFFFFFFE8F#96⟩
def rowRdRelease : Row := ⟨"RD_RELEASE", 0x000000000000000000000005#96, 0xFFFFFFFFFFFFFFFFFFFFFF8F#96⟩
def rowTxStart : Row := ⟨"TX_START", 0x000000000000000000000006#96, 0x0000000000000000FF00FFFF#96⟩
def rowStatus : Row := ⟨"STATUS", 0x000000000000000000000007#96, 0xFFFFFFFFFFFFFFFFFFFFFFFF#96⟩

/-- The command table of R72, in its order. -/
def commandTable : List Row :=
  [rowEdge, rowRdAcquire, rowRdBit, rowRdWord, rowRdRelease, rowTxStart, rowStatus]

/-- The mnemonic of a command (R71), as spec/opcode_table.json spells it. -/
def Instr.mnemonic : Instr → String
  | .edge _ => "EDGE"
  | .rdAcquire => "RD_ACQUIRE"
  | .rdBit _ _ => "RD_BIT"
  | .rdWord _ _ => "RD_WORD"
  | .rdRelease _ => "RD_RELEASE"
  | .txStart _ _ => "TX_START"
  | .status => "STATUS"

/-- `op`, bits [3:0] (R70). -/
def opField (w : CmdWord) : BitVec 4 := w.extractLsb' 0 4

/-- `s = zext(cmd[6:4])` (R73). -/
def slotField (w : CmdWord) : SlotIdx := Fin.ofNat 8 (w.extractLsb' 4 3).toNat

/-- `i = zext(cmd[14:8])` (R73). -/
def idxField (w : CmdWord) : BitIdx := Fin.ofNat 128 (w.extractLsb' 8 7).toNat

/-- `w = cmd[8]` (R73). -/
def wordSelField (w : CmdWord) : WordSel := Fin.ofNat 2 (w.extractLsb' 8 1).toNat

/-- `rep = zext(cmd[23:16])` (R73). -/
def repField (w : CmdWord) : U8 := w.extractLsb' 16 8

/-- `t = cmd[63:32]` (R73). -/
def timeField (w : CmdWord) : U32 := w.extractLsb' 32 32

/-- `code = cmd[95:32]` (R73). -/
def codeField (w : CmdWord) : U64 := w.extractLsb' 32 64

/-- Why a word is illegal (R77). -/
inductive DecodeError where
  /-- The op field holds a reserved operation code, 0x0 or 0x8 to 0xF. -/
  | reservedOp (op : BitVec 4)
  /-- The op field names a command, but a bit its mask requires to be 0 is 1. -/
  | nonzeroReservedBits (op : BitVec 4)
  deriving DecidableEq, Repr

/-- The outcome of decoding a word (R76). -/
inductive Decoded where
  | command (i : Instr)
  | illegal (e : DecodeError)
  deriving DecidableEq, Repr

/-- The name of the reason for which a word that matches no row is illegal (R77). -/
def illegalReason (w : CmdWord) : DecodeError :=
  if opField w = 0 ∨ 8 ≤ (opField w).toNat then .reservedOp (opField w) else .nonzeroReservedBits (opField w)

/-- Decoding, in the row order of R76; total on any 96-bit word. -/
def decode (w : CmdWord) : Decoded :=
  if rowEdge.accepts w then .command (.edge (timeField w))
  else if rowRdAcquire.accepts w then .command .rdAcquire
  else if rowRdBit.accepts w then .command (.rdBit (slotField w) (idxField w))
  else if rowRdWord.accepts w then .command (.rdWord (slotField w) (wordSelField w))
  else if rowRdRelease.accepts w then .command (.rdRelease (slotField w))
  else if rowTxStart.accepts w then .command (.txStart (codeField w) (repField w))
  else if rowStatus.accepts w then .command .status
  else .illegal (illegalReason w)

/-- The command word with the given fields, every reserved bit 0 (R70). -/
def packCommand (op : BitVec 4) (slot : BitVec 3) (idx : BitVec 7) (rep : U8) (data : U64) : CmdWord :=
  data ++ 0#8 ++ rep ++ 0#1 ++ idx ++ 0#1 ++ slot ++ op

/-- The command word of a command: the op codes of R71, the fields of R70, unused fields 0 (R72). -/
def encode : Instr → CmdWord
  | .edge t => packCommand 0x1#4 0#3 0#7 0#8 (t.setWidth 64)
  | .rdAcquire => packCommand 0x2#4 0#3 0#7 0#8 0#64
  | .rdBit s i => packCommand 0x3#4 (BitVec.ofNat 3 s.val) (BitVec.ofNat 7 i.val) 0#8 0#64
  | .rdWord s w => packCommand 0x4#4 (BitVec.ofNat 3 s.val) (BitVec.ofNat 7 w.val) 0#8 0#64
  | .rdRelease s => packCommand 0x5#4 (BitVec.ofNat 3 s.val) 0#7 0#8 0#64
  | .txStart code rep => packCommand 0x6#4 0#3 0#7 rep code
  | .status => packCommand 0x7#4 0#3 0#7 0#8 0#64

/-- The 96-bit command word whose low `nbits` bits are those of `w` and whose other bits are 0. -/
def tableWord (nbits w : Nat) : CmdWord := BitVec.ofNat 96 (w % 2 ^ nbits)

/-- The command the decoder reads from a word numbered as spec/opcode_table.json numbers it. A command is one 96-bit
word (R78), so no word longer than 96 bits is a command (log 15). -/
def decodeTableWord (nbits w : Nat) : Option Instr :=
  if 96 < nbits then none
  else match decode (tableWord nbits w) with
    | .command i => some i
    | .illegal _ => none

end Sys2Proof
end

