-- ==== Sys2Proof/Config.lean ====
section
/-! DEFINITION. What is fixed at construction (spec 00_scope.md R8; 42_timing_model.md R130): the TimingModel as a type,
its default values, and the block's other parameters. -/

namespace Sys2Proof

/-- The three values of one phase of one symbol: nominal duration and window bounds (R24). -/
structure PhaseTiming where
  nom : U32
  min : U32
  max : U32
  deriving DecidableEq, Repr

/-- A symbol is a (high, low) pair of phases (R12). -/
structure SymbolTiming where
  high : PhaseTiming
  low : PhaseTiming
  deriving DecidableEq, Repr

/-- `TM`, the TimingModel: 6 nominal durations and 12 bounds (R24). -/
structure TimingModel where
  sync : SymbolTiming
  zero : SymbolTiming
  one : SymbolTiming
  deriving DecidableEq, Repr

namespace Config

/-- The default TimingModel (R130), in microseconds.
DESIGN CHOICE (log 10): `State.reset` carries these defaults; statements quantify over every `TM`. -/
def defaultTM : TimingModel where
  sync := ⟨⟨5200, 5000, 5400⟩, ⟨600, 500, 700⟩⟩
  zero := ⟨⟨600, 500, 700⟩, ⟨200, 150, 350⟩⟩
  one := ⟨⟨200, 150, 350⟩, ⟨600, 500, 700⟩⟩

/-- RING_SLOTS (R8). -/
def ringSlots : Nat := 8

/-- RING_MAX_BUFFERED (R8). -/
def ringMaxBuffered : Nat := 7

/-- FRAME_BITS (R8). -/
def frameBits : Nat := 128

/-- VALID_FRAME_BITS (R8): the consumer's rule, not the block's (R53). -/
def validFrameBits : Nat := 64

/-- The reference value of LAST_EDGE_INIT (R34, D11), which `State.reset` uses.
DESIGN CHOICE (log 8): the parameter is open; `State.atReset` takes any value. -/
def lastEdgeInit : U32 := 0

/-- TX_OVERRUN_MAX (R8): 0 for the reference hardware. No rule of the model reads it (R8; log 20). -/
def txOverrunMax : Nat := 0

end Config

end Sys2Proof
end

