-- ==== Sys2Proof/Machine/State.lean ====
section
/-! DEFINITION. The state of the block (spec 10_state.md R20 to R34), grouped by the components of 00_scope.md R2, plus the
model's own fields for the environment: the schedule of events and the response port. Plain data throughout. -/

namespace Sys2Proof.Machine

/-- DecoderState (R26). The encodings 5 to 7 of R80 are not representable (R80; log 21). -/
inductive DecState where
  | waitingForSync
  | waitingForHigh
  | waitingForLowSync
  | waitingForLowZero
  | waitingForLowOne
  deriving DecidableEq, Repr

/-- The PulseDecoder's registers (R26, R27). -/
structure Decoder where
  /-- `dec_state` -/
  state : DecState
  /-- `last_edge` -/
  lastEdge : U32
  deriving DecidableEq, Repr

/-- One slot: `size[s]` (R28) and `bits[s][*]` (R29). -/
structure Frame where
  size : U8
  bits : SlotBits
  deriving DecidableEq, Repr

/-- The frame storage, the block's only memory (R50): eight slots, all of them present (R51). It is dense, so equal
memories are equal data (log 11). -/
abbrev Memory := Vector Frame 8

/-- The PulseRing: `rd`, `wr` (R25) and the slots. -/
structure Ring where
  rd : SlotIdx
  wr : SlotIdx
  slots : Memory
  deriving DecidableEq, Repr

/-- `tx_phase` (R30). -/
inductive Phase where
  | high
  | low
  deriving DecidableEq, Repr

/-- The TX sequencer registers (R30). -/
structure Encoder where
  /-- `tx_busy` -/
  busy : Bool
  /-- `tx_pin`, `true` is high -/
  pin : Bool
  /-- `tx_code` -/
  code : U64
  /-- `tx_rep_left` -/
  repLeft : U8
  /-- `tx_pos` -/
  pos : BitVec 7
  /-- `tx_phase` -/
  phase : Phase
  deriving DecidableEq, Repr

/-- One TX segment: a level held for a duration (R12, R172). -/
structure Segment where
  level : Bool
  dur : U32
  deriving DecidableEq, Repr

/-- The model faults of the spec (R206). A fault does NOT stop the machine: it is recorded in `State.fault` and the
machine goes on (R202; log 4), so no step ever answers with the outcome `fault`. -/
inductive Fault where
  /-- Code 1, CONSUMER_PROTOCOL (R201): recorded by RD_BIT, RD_WORD and RD_RELEASE. Safe: the record is never a good
  final state. -/
  | consumerProtocol
  /-- Code 2, TX_BUSY (R203): recorded by TX_START while a transmission runs. Safe: as above. -/
  | txBusy
  deriving DecidableEq, Repr

/-- An entry of the `fault` list: the fault code and the 96-bit command word (R31, R202). -/
structure FaultEntry where
  code : Fault
  word : CmdWord
  deriving DecidableEq, Repr

/-- The command ports (D1). -/
inductive Port where
  /-- The edge port, used by the EdgeSource. -/
  | edge
  /-- The consumer port, used by the Consumer. -/
  | consumer
  /-- The TX port, used by the TxCaller. -/
  | tx
  deriving DecidableEq, Repr

/-- Why a step has no next state. The spec gives the block no refusal of this kind: these name moves that NO agent has,
so no run of the block contains them (log 3). -/
inductive Refusal where
  /-- An instruction that has no meaning in this model. No arm of `exec` raises it. Safe. -/
  | notModelled (mnemonic : String)
  /-- Raised by `step` when the schedule gives a port a command that its agent does not issue (R71, R212). Safe. -/
  | foreignCommand (port : Port)
  /-- Raised by `step` when the schedule moves the TxSequencer while `tx_busy = 0` (R172: enabled exactly when
  `tx_busy = 1`). Safe. -/
  | txSequencerNotEnabled
  deriving DecidableEq, Repr

/-- One choice of the environment: which agent moves next, and with what (R9, R59). The model's own (log 1). -/
inductive Event where
  /-- A command word arrives at a port. -/
  | command (port : Port) (word : CmdWord)
  /-- The TxSequencer takes one segment step: the schedule directive TXSTEP (R82). -/
  | txStep
  /-- The TxSequencer takes segment steps until `tx_busy = 0`: TXRUN (R83). -/
  | txRun
  /-- The reset input (R230). It carries the values that the spec leaves open at reset: LAST_EDGE_INIT and the bits of
  the slots (R34; log 8, log 9). -/
  | reset (lastEdgeInit : U32) (bits : Vector SlotBits 8)
  deriving DecidableEq, Repr

/-- The state of the block (R20). The last three fields are the model's own, not the spec's (log 1, log 7). -/
structure State where
  /-- `TM`, read-only to every command (R24) -/
  tm : TimingModel
  /-- the PulseDecoder (R26, R27) -/
  dec : Decoder
  /-- the PulseRing (R25, R28, R29) -/
  ring : Ring
  /-- the TX sequencer (R30) -/
  enc : Encoder
  /-- `fault`: every fault raised so far, in order (R31) -/
  fault : List FaultEntry
  /-- `refused`: an illegal command word has been seen (R31) -/
  refused : Bool
  /-- `trace`: every TX segment emitted, in order (R31) -/
  trace : List Segment
  /-- the last response word (R74) -/
  resp : RespWord
  /-- the port that response went to (R74) -/
  respTo : Port
  /-- the environment's choices still to come (R9) -/
  schedule : List Event
  deriving DecidableEq, Repr

/-- The TX sequencer at reset (R34). -/
def Encoder.atReset : Encoder where
  busy := false
  pin := false
  code := 0
  repLeft := 0
  pos := 0
  phase := .high

/-- The state after reset for a TimingModel and for ANY value of what the spec leaves open at reset: `last_edge`
(LAST_EDGE_INIT, D11) and the stored bits (D27). R34. -/
def State.atReset (tm : TimingModel) (lastEdgeInit : U32) (bits : Vector SlotBits 8) : State where
  tm := tm
  dec := ⟨.waitingForSync, lastEdgeInit⟩
  ring := ⟨0, 0, Vector.ofFn fun k => ⟨0, bits[k.val]⟩⟩
  enc := .atReset
  fault := []
  refused := false
  trace := []
  resp := 0
  respTo := .consumer
  schedule := []

/-- The machine right after reset, at the default TimingModel (R130; log 10), LAST_EDGE_INIT at its reference value 0
(DESIGN CHOICE, log 8) and every stored bit 0 (DESIGN CHOICE, log 9). -/
def State.reset : State :=
  State.atReset Config.defaultTM Config.lastEdgeInit (Vector.replicate 8 0)

end Sys2Proof.Machine
end

