-- ==== Sys2Proof/Machine/Ops.lean ====
section
/-! DEFINITION. The named operations over the state: frame storage (spec 00_scope.md R10 FrameRead and FrameWrite,
43_pulse_decoder.md R141 Append), state updates, the response port (30_encoding.md R74), recording a fault
(60_exceptions.md R202), refusing an illegal word (R204), the ports (30_encoding.md R71) and reset (70 R230). The block has
no trap entry and no return from one (R209, R210): `raiseFault` is the one shared operation for every fault. -/

namespace Sys2Proof.Machine

/-- `next(i) = (i + 1) mod 8` (R10). -/
def nextSlot (i : SlotIdx) : SlotIdx := i + 1

/-- FrameRead within a slot: the stored bit at position `i` (R10). -/
def Frame.read (f : Frame) (i : Nat) : Bool := f.bits.getLsbD i

/-- FrameWrite within a slot: the bit at position `i` becomes `b` (R10). -/
def Frame.write (f : Frame) (i : Nat) (b : Bool) : Frame :=
  { f with bits := if b then f.bits ||| (1#128 <<< i) else f.bits &&& ~~~(1#128 <<< i) }

/-- Append within a slot (R141): below capacity the bit goes to the position equal to the size, else it is dropped. -/
def Frame.append (f : Frame) (b : Bool) : Frame :=
  if f.size < 128#8 then { f.write f.size.toNat b with size := f.size + 1#8 } else f

/-- `size[s] <- 0`; the bits stay (R105, R29). -/
def Frame.clear (f : Frame) : Frame := { f with size := 0 }

/-- The frame in slot `s`. -/
def Memory.frame (m : Memory) (s : SlotIdx) : Frame := m[s.val]

/-- Replace the frame in slot `s`. -/
def Memory.setFrame (m : Memory) (s : SlotIdx) (f : Frame) : Memory := m.set s.val f s.isLt

/-- FrameRead(s, i) (R10). -/
def Memory.read (m : Memory) (s : SlotIdx) (i : Nat) : Bool := (m.frame s).read i

/-- FrameWrite(s, i, b) (R10). -/
def Memory.write (m : Memory) (s : SlotIdx) (i : Nat) (b : Bool) : Memory := m.setFrame s ((m.frame s).write i b)

/-- Append(s, b) (R141). -/
def Memory.append (m : Memory) (s : SlotIdx) (b : Bool) : Memory := m.setFrame s ((m.frame s).append b)

/-- `size[s] <- 0` (R105). -/
def Memory.clear (m : Memory) (s : SlotIdx) : Memory := m.setFrame s (m.frame s).clear

/-- The canonical form of the frame storage: every size register holds 0..128 (R28). The dense form needs no other
condition for equal memories to be equal data (log 11). -/
def Memory.wf (m : Memory) : Bool := decide (∀ s : SlotIdx, (m.frame s).size ≤ 128#8)

/-- `dec` replaced. -/
def State.withDec (s : State) (d : Decoder) : State := { s with dec := d }

/-- `ring` replaced. -/
def State.withRing (s : State) (r : Ring) : State := { s with ring := r }

/-- `enc` replaced. -/
def State.withEnc (s : State) (e : Encoder) : State := { s with enc := e }

/-- The events still to come replaced. -/
def State.withSchedule (s : State) (es : List Event) : State := { s with schedule := es }

/-- A command returns its response word (R74). -/
def State.respond (s : State) (r : RespWord) : State := { s with resp := r }

/-- `emit Segment(level, dur)`: appended to `trace` (R172). -/
def State.emit (s : State) (g : Segment) : State := { s with trace := s.trace ++ [g] }

/-- The fault code (R206). -/
def Fault.number : Fault → Nat
  | .consumerProtocol => 1
  | .txBusy => 2

/-- `raise Fault(code); return 0` (R202): the pair (fault code, command word) is appended to `fault`, the command
returns 0 and makes no other change. No statement depends on that response (I-14; log 5). -/
def State.raiseFault (s : State) (c : Fault) (i : Instr) : State :=
  State.respond { s with fault := s.fault ++ [⟨c, encode i⟩] } 0

/-- Refusal ILLEGAL_COMMAND (R204): `refused` is set, nothing else changes (log 6). -/
def State.refuseIllegal (s : State) : State := { s with refused := true }

/-- The agents' commands (R71): which port issues which command. -/
def Port.mayIssue (p : Port) (i : Instr) : Bool :=
  match i with
  | .edge _ => p == .edge
  | .rdAcquire => p == .consumer
  | .rdBit _ _ => p == .consumer
  | .rdWord _ _ => p == .consumer
  | .rdRelease _ => p == .consumer
  | .txStart _ _ => p == .tx
  | .status => p == .consumer || p == .tx

/-- The port of the agent that issues a command (R71). STATUS has two; the consumer port is taken here
(DESIGN CHOICE, log 17). -/
def Port.ofInstr : Instr → Port
  | .edge _ => .edge
  | .rdAcquire => .consumer
  | .rdBit _ _ => .consumer
  | .rdWord _ _ => .consumer
  | .rdRelease _ => .consumer
  | .txStart _ _ => .tx
  | .status => .consumer

/-- The port of a raw word; an illegal word has no issuer, the consumer port is taken (DESIGN CHOICE, log 17). -/
def Port.ofWord (w : CmdWord) : Port :=
  match decode w with
  | .command i => .ofInstr i
  | .illegal _ => .consumer

/-- A command is taken from the schedule: it is consumed, and the response will go to its port (R74). -/
def State.accept (s : State) (p : Port) (rest : List Event) : State := { s with respTo := p, schedule := rest }

/-- Reset (R230, R231): every element takes its value of R34, `TM` stays. The environment's events stay too. That the
record of faults, refusals and segments is emptied as well is log 12. -/
def State.applyReset (s : State) (lastEdgeInit : U32) (bits : Vector SlotBits 8) : State :=
  (State.atReset s.tm lastEdgeInit bits).withSchedule s.schedule

end Sys2Proof.Machine
end

