-- ==== Sys2Proof/Machine/Flags.lean ====
section
/-! DEFINITION. The status conditions, which are functions of the state (spec 10_state.md R23), the encodings of state
values (30_encoding.md R80, R81; 10_state.md R25) and the response layouts (30_encoding.md R75; 45_status.md R190). -/

namespace Sys2Proof.Machine

/-- `empty`: `rd = wr` (R23). -/
def Ring.empty (r : Ring) : Bool := r.rd == r.wr

/-- `full`: `rd = next(wr)` (R23). -/
def Ring.full (r : Ring) : Bool := r.rd == nextSlot r.wr

/-- `buffered = (wr - rd) mod 8` (R23). -/
def Ring.buffered (r : Ring) : Nat := (r.wr - r.rd).val

/-- The committed slots: the `buffered` slots from `rd` up to, but not including, `wr` (R33, INV1). -/
def Ring.committed (r : Ring) (s : SlotIdx) : Bool := decide ((s - r.rd).val < r.buffered)

/-- `ring_index = {rd[2:0], wr[2:0]}` (R25). -/
def Ring.index (r : Ring) : BitVec 6 := BitVec.ofNat 3 r.rd.val ++ BitVec.ofNat 3 r.wr.val

/-- DecoderState encoding (R80). -/
def DecState.encoding : DecState → BitVec 3
  | .waitingForSync => 0
  | .waitingForHigh => 1
  | .waitingForLowSync => 2
  | .waitingForLowZero => 3
  | .waitingForLowOne => 4

/-- TX phase encoding: HIGH = 1, LOW = 0 (R81). -/
def Phase.encoding : Phase → BitVec 1
  | .high => 1
  | .low => 0

/-- The response of RD_ACQUIRE for slot `s` with `size` (R75): valid = 1, slot in [3:1], size in [11:4]. -/
def acquireResponse (s : SlotIdx) (size : U8) : RespWord :=
  (size ++ BitVec.ofNat 3 s.val ++ 1#1).setWidth 64

/-- The response of RD_BIT (R75): the bit, zero-extended. -/
def bitResponse (b : Bool) : RespWord := (BitVec.ofBool b).setWidth 64

/-- The response of STATUS (R190). -/
def statusResponse (s : State) : RespWord :=
  ((s.ring.slots.frame s.ring.wr).size ++ BitVec.ofBool s.enc.pin ++ BitVec.ofBool s.enc.busy ++ s.ring.index
    ++ s.dec.state.encoding).setWidth 64

end Sys2Proof.Machine
end

