-- ==== Sys2Proof/Machine/Operands.lean ====
section
/-! DEFINITION. What the operands of the consumer commands select: the head-slot precondition (spec 60_exceptions.md R201)
and the bits of a frame that a read returns (41_pulse_ring.md R103, R104; 20_memory.md R53). -/

namespace Sys2Proof.Machine

/-- `s` is the head slot of a non-empty ring: the negation of "`rd = wr` or `s ≠ rd`" (R201). -/
def Ring.isHead (r : Ring) (s : SlotIdx) : Bool := !(r.rd == r.wr || s != r.rd)

/-- The bit RD_BIT returns: the stored bit below the size, 0 at or beyond it, never a stale bit (R103, D14). -/
def Frame.visibleBit (f : Frame) (i : Nat) : Bool := decide (i < f.size.toNat) && f.read i

/-- The word RD_WORD returns: bit `j` is position `64w + j` below the size, else 0 (R104). The stored bits are cut to the
size, which leaves 0 above it, and 64 positions are taken. -/
def Frame.visibleWord (f : Frame) (w : WordSel) : RespWord :=
  (f.bits.setWidth f.size.toNat).extractLsb' (64 * w.val) 64

/-- A frame as the sequence of its bits, position 0 first (R12, R52). -/
def Frame.content (f : Frame) : List Bool := (List.range f.size.toNat).map f.read

/-- The consumer's rule: a frame is valid application data only when its size is exactly 64 (R53). -/
def Frame.isValid (f : Frame) : Bool := f.size == 64#8

/-- The 64-bit value of a valid frame: `V[i] = bits[s][i]` (R53). -/
def Frame.value (f : Frame) : U64 := f.bits.setWidth 64

end Sys2Proof.Machine
end

