-- ==== Sys2Proof/Machine/Consumer.lean ====
section
/-! DEFINITION. The PulseRing operations (spec 41_pulse_ring.md): the producer's internal steps AcquireWriteSlot (R100) and
CommitWriteSlot (R101), the compare-and-swap update of the ring index (20_memory.md R63), and the four consumer commands
(R102 to R105). -/

namespace Sys2Proof.Machine

/-- AcquireWriteSlot (R100): none when the ring is full, else the write slot. -/
def Ring.acquireWriteSlot (r : Ring) : Option SlotIdx :=
  if r.rd = nextSlot r.wr then none else some r.wr

/-- CommitWriteSlot(s) (R101): `wr` advances when the slot holds bits; an empty slot stays the write slot. -/
def Ring.commitWriteSlot (r : Ring) (s : SlotIdx) : Ring :=
  if 0#8 < (r.slots.frame s).size then { r with wr := nextSlot r.wr } else r

/-- The effect of RD_RELEASE on the head slot (R105): first the size, then `rd`. -/
def Ring.releaseHead (r : Ring) (s : SlotIdx) : Ring :=
  { r with slots := r.slots.clear s, rd := nextSlot r.rd }

/-- Which half of the packed ring index a side owns (R25). -/
inductive RingHalf where
  | read
  | write
  deriving DecidableEq, Repr

/-- The value of a half of the packed index: `rd` is bits [5:3], `wr` is bits [2:0] (R25). -/
def RingHalf.get (h : RingHalf) (x : BitVec 6) : BitVec 3 :=
  match h with
  | .read => x.extractLsb' 3 3
  | .write => x.extractLsb' 0 3

/-- The packed index with one half replaced (R25). -/
def RingHalf.set (h : RingHalf) (x : BitVec 6) (v : BitVec 3) : BitVec 6 :=
  match h with
  | .read => v ++ x.extractLsb' 0 3
  | .write => x.extractLsb' 3 3 ++ v

/-- The half the other side owns. -/
def RingHalf.other : RingHalf → RingHalf
  | .read => .write
  | .write => .read

/-- The compare-and-swap loop of R63, for the owner of half `h` advancing it. Each element of the list is what the other
side leaves in ITS half between the load and the swap of one attempt; the swap succeeds when the packed value is still
the loaded one, else the loop retries with a fresh snapshot. After the list, no more interference comes. -/
def casAdvance (h : RingHalf) (ringIndex : BitVec 6) : List (BitVec 3) → BitVec 6
  | [] => h.set ringIndex (h.get ringIndex + 1)
  | v :: rest =>
    let now := h.other.set ringIndex v
    if now = ringIndex then h.set ringIndex (h.get ringIndex + 1) else casAdvance h now rest

/-- RD_ACQUIRE (R102). -/
def execRdAcquire (s : State) : Host.Outcome State Fault Refusal :=
  if s.ring.rd = s.ring.wr then .next (s.respond 0)
  else .next (s.respond (acquireResponse s.ring.rd (s.ring.slots.frame s.ring.rd).size))

/-- RD_BIT(s, i) (R103). -/
def execRdBit (sl : SlotIdx) (idx : BitIdx) (s : State) : Host.Outcome State Fault Refusal :=
  if s.ring.isHead sl then .next (s.respond (bitResponse ((s.ring.slots.frame sl).visibleBit idx.val)))
  else .next (s.raiseFault .consumerProtocol (.rdBit sl idx))

/-- RD_WORD(s, w) (R104). -/
def execRdWord (sl : SlotIdx) (w : WordSel) (s : State) : Host.Outcome State Fault Refusal :=
  if s.ring.isHead sl then .next (s.respond ((s.ring.slots.frame sl).visibleWord w))
  else .next (s.raiseFault .consumerProtocol (.rdWord sl w))

/-- RD_RELEASE(s) (R105): the size test comes before the head-slot test (R208). -/
def execRdRelease (sl : SlotIdx) (s : State) : Host.Outcome State Fault Refusal :=
  if (s.ring.slots.frame sl).size = 0 then .next (s.respond 0)
  else if s.ring.isHead sl then .next ((s.withRing (s.ring.releaseHead sl)).respond 0)
  else .next (s.raiseFault .consumerProtocol (.rdRelease sl))

end Sys2Proof.Machine
end

