-- ==== Sys2Proof/Machine/Timing.lean ====
section
/-! DEFINITION. The TimingModel's functions: the strict window test (spec 42_timing_model.md R132) and the construction-time
derivation of the bounds (R131). -/

namespace Sys2Proof.Machine

/-- `InWin(d, W)`: both comparisons unsigned and strict (R132). -/
def inWin (d : U32) (w : PhaseTiming) : Bool := decide (w.min < d) && decide (d < w.max)

/-- DeriveBounds(nom, (dmin, dmax)) = (nom - dmin, nom + dmax), exact; none where a bound would wrap: the configuration is
rejected at construction (R131). -/
def deriveBounds (nom dmin dmax : U32) : Option (U32 × U32) :=
  if dmin ≤ nom ∧ nom.toNat + dmax.toNat < 2 ^ 32 then some (nom - dmin, nom + dmax) else none

/-- One phase constructed from its nominal duration and tolerance pair (R131). -/
def constructPhase (nom dmin dmax : U32) : Option PhaseTiming :=
  (deriveBounds nom dmin dmax).map fun b => ⟨nom, b.1, b.2⟩

/-- A nominal duration with its tolerance pair (δmin, δmax) (R131). -/
structure PhaseTolerance where
  nom : U32
  dmin : U32
  dmax : U32
  deriving DecidableEq, Repr

/-- One symbol constructed from its two phases; none where either is rejected (R131). -/
def constructSymbol (high low : PhaseTolerance) : Option SymbolTiming :=
  (constructPhase high.nom high.dmin high.dmax).bind fun h =>
    (constructPhase low.nom low.dmin low.dmax).map fun l => ⟨h, l⟩

/-- The TimingModel constructed "independently to each phase"; none where any phase is rejected (R131, R232.1). -/
def constructTM (syncHigh syncLow zeroHigh zeroLow oneHigh oneLow : PhaseTolerance) : Option TimingModel :=
  (constructSymbol syncHigh syncLow).bind fun s =>
    (constructSymbol zeroHigh zeroLow).bind fun z =>
      (constructSymbol oneHigh oneLow).map fun o => ⟨s, z, o⟩

end Sys2Proof.Machine
end

