-- ==== Sys2Proof/Machine/Receiver.lean ====
section
/-! DEFINITION. The PulseDecoder: EDGE (spec 43_pulse_decoder.md R140 to R151). -/

namespace Sys2Proof.Machine

/-- The duration an edge at `t` ends: `t - last_edge` modulo 2^32 (R145). -/
def Decoder.duration (d : Decoder) (t : U32) : U32 := t - d.lastEdge

/-- Step 3 of EDGE (R140, the table of R142): the next decoder state, and the bit to append if there is one. -/
def classify (tm : TimingModel) (st : DecState) (d : U32) : DecState × Option Bool :=
  match st with
  | .waitingForSync => (.waitingForSync, none)
  | .waitingForLowSync => if inWin d tm.sync.low then (.waitingForHigh, none) else (.waitingForSync, none)
  | .waitingForHigh =>
    if inWin d tm.zero.high then (.waitingForLowZero, none)
    else if inWin d tm.one.high then (.waitingForLowOne, none)
    else (.waitingForSync, none)
  | .waitingForLowZero => if inWin d tm.zero.low then (.waitingForHigh, some false) else (.waitingForSync, none)
  | .waitingForLowOne => if inWin d tm.one.low then (.waitingForHigh, some true) else (.waitingForSync, none)

/-- The append of step 3, if there is one (R141). -/
def Ring.appendOption (r : Ring) (s : SlotIdx) : Option Bool → Ring
  | none => r
  | some b => { r with slots := r.slots.append s b }

/-- The decoder registers and the ring after an edge at `t` (R140, steps 1 to 3). -/
def edgeEffect (tm : TimingModel) (dec : Decoder) (r : Ring) (t : U32) : Decoder × Ring :=
  match r.acquireWriteSlot with
  | none => (⟨.waitingForSync, t⟩, r)
  | some sl =>
    if inWin (dec.duration t) tm.sync.high then (⟨.waitingForLowSync, t⟩, r.commitWriteSlot sl)
    else
      (⟨(classify tm dec.state (dec.duration t)).1, t⟩,
        r.appendOption sl (classify tm dec.state (dec.duration t)).2)

/-- EDGE(t) (R140). -/
def execEdge (t : U32) (s : State) : Host.Outcome State Fault Refusal :=
  .next (((s.withDec (edgeEffect s.tm s.dec s.ring t).1).withRing (edgeEffect s.tm s.dec s.ring t).2).respond 0)

end Sys2Proof.Machine
end

