-- ==== Sys2Proof/Machine/Status.lean ====
section
/-! DEFINITION. STATUS (spec 45_status.md R190). -/

namespace Sys2Proof.Machine

/-- STATUS (R190): a snapshot of the control state; no state is written. -/
def execStatus (s : State) : Host.Outcome State Fault Refusal := .next (s.respond (statusResponse s))

end Sys2Proof.Machine
end

