-- ==== Sys2Proof/Machine/Transmitter.lean ====
section
/-! DEFINITION. The PulseEncoder: TX_START (spec 44_pulse_encoder.md R170), the TX segment step (R172), the trace of a call
(R173) and the edges of the pin (R176, R177). -/

namespace Sys2Proof.Machine

/-- The registers after a TX_START that starts a transmission (R170); `tx_pin` keeps its level. -/
def Encoder.start (e : Encoder) (code : U64) (rep : U8) : Encoder :=
  { e with busy := true, code := code, repLeft := rep, pos := 0, phase := .high }

/-- TX_START(code, rep) (R170). -/
def execTxStart (code : U64) (rep : U8) (s : State) : Host.Outcome State Fault Refusal :=
  if s.enc.busy then .next (s.raiseFault .txBusy (.txStart code rep))
  else if rep = 0 then .next (s.respond 0)
  else .next ((s.withEnc (s.enc.start code rep)).respond 0)

/-- The symbol of a data bit (R172). -/
def dataSymbol (tm : TimingModel) (b : Bool) : SymbolTiming := if b then tm.one else tm.zero

/-- The symbol at `tx_pos` (R172): sync at 0, else the symbol of `tx_code[tx_pos - 1]`. -/
def Encoder.symbol (e : Encoder) (tm : TimingModel) : SymbolTiming :=
  if e.pos = 0 then tm.sync else dataSymbol tm (e.code.getLsbD (e.pos.toNat - 1))

/-- The segment the next TXSTEP emits (R172): level 1 in the HIGH phase, 0 in the LOW phase, at the nominal duration. -/
def Encoder.segment (e : Encoder) (tm : TimingModel) : Segment :=
  match e.phase with
  | .high => ⟨true, (e.symbol tm).high.nom⟩
  | .low => ⟨false, (e.symbol tm).low.nom⟩

/-- The registers after a LOW phase (R172): the next symbol, the next repeat, or the end of the call. -/
def Encoder.finishSymbol (e : Encoder) : Encoder :=
  if e.pos.toNat < 64 then { e with pin := false, phase := .high, pos := e.pos + 1 }
  else
    { e with
      pin := false, phase := .high, pos := 0, repLeft := e.repLeft - 1,
      busy := if e.repLeft - 1 = 0 then false else e.busy }

/-- The registers after one TXSTEP (R172). -/
def Encoder.advance (e : Encoder) : Encoder :=
  match e.phase with
  | .high => { e with pin := true, phase := .low }
  | .low => e.finishSymbol

/-- TXSTEP (R172), enabled when `tx_busy = 1`. -/
def State.txSegmentStep (s : State) : State := (s.withEnc s.enc.advance).emit (s.enc.segment s.tm)

/-- The two segments of one symbol (R173). -/
def symbolSegments (x : SymbolTiming) : List Segment := [⟨true, x.high.nom⟩, ⟨false, x.low.nom⟩]

/-- The 65 symbols of one repeat: sync, then data bits 0 to 63 (R54, R173). -/
def repeatSymbols (tm : TimingModel) (code : U64) : List SymbolTiming :=
  tm.sync :: (List.range 64).map fun j => dataSymbol tm (code.getLsbD j)

/-- The segments of one repeat (R173). -/
def repeatSegments (tm : TimingModel) (code : U64) : List Segment :=
  (repeatSymbols tm code).flatMap symbolSegments

/-- `TxSegments(code, rep)` (R173). -/
def txSegments (tm : TimingModel) (code : U64) (rep : Nat) : List Segment :=
  (List.replicate rep (repeatSegments tm code)).flatten

/-- The timestamps of the pin transitions of a trace whose first segment starts at `t`: every segment starts with an
edge (R176), and the edge that starts segment k + 1 comes the duration of segment k after the edge before it (R177). -/
def pinEdges (t : U32) : List Segment → List U32
  | [] => []
  | g :: rest => t :: pinEdges (t + g.dur) rest

end Sys2Proof.Machine
end

