-- ==== Sys2Proof/Machine/Dispatch.lean ====
section
/-! DEFINITION. The meaning of every command: one arm per constructor of Instr. -/

namespace Sys2Proof.Machine

def exec (i : Instr) (s : State) : Host.Outcome State Fault Refusal :=
  match i with
  | .edge t => Sys2Proof.Machine.execEdge t s
  | .rdAcquire => Sys2Proof.Machine.execRdAcquire s
  | .rdBit sl idx => Sys2Proof.Machine.execRdBit sl idx s
  | .rdWord sl w => Sys2Proof.Machine.execRdWord sl w s
  | .rdRelease sl => Sys2Proof.Machine.execRdRelease sl s
  | .txStart code rep => Sys2Proof.Machine.execTxStart code rep s
  | .status => Sys2Proof.Machine.execStatus s

end Sys2Proof.Machine
end

