-- ==== Sys2Proof/Machine/Step.lean ====
section
/-! DEFINITION. One step of the machine: the next move of the schedule (spec 00_scope.md R9; 20_memory.md R59; log 1). -/

namespace Sys2Proof.Machine

/-- One atomic step (R57).
* No event pending: only the TxSequencer may be enabled; it takes a segment step while busy (R171), else the block holds
  its state (R217, R218; log 2).
* A command word: an illegal one is refused by setting `refused` (R204); a legal one runs if its port's agent issues it
  (R71, R212), else the schedule is no run of the block (log 3).
* TXSTEP: enabled exactly when `tx_busy = 1` (R172; log 3). TXRUN: TXSTEP until `tx_busy = 0` (R83).
* Reset (R230). -/
def step (s : State) : Host.Outcome State Fault Refusal :=
  match s.schedule with
  | [] => .next (if s.enc.busy then s.txSegmentStep else s)
  | .command p w :: rest =>
    match decode w with
    | .illegal _ => .next (s.withSchedule rest).refuseIllegal
    | .command i => if p.mayIssue i then exec i (s.accept p rest) else .refused (.foreignCommand p)
  | .txStep :: rest =>
    if s.enc.busy then .next (s.withSchedule rest).txSegmentStep else .refused .txSequencerNotEnabled
  | .txRun :: rest => .next (if s.enc.busy then s.txSegmentStep else s.withSchedule rest)
  | .reset lastEdgeInit bits :: rest => .next ((s.withSchedule rest).applyReset lastEdgeInit bits)

/-- `s` with the command word `w` as the next event, issued by its agent (log 1): the next step runs it. -/
def State.withFetchWord (s : State) (nbits w : Nat) : State :=
  s.withSchedule (.command (.ofWord (tableWord nbits w)) (tableWord nbits w) :: s.schedule)

end Sys2Proof.Machine
end

