-- ==== Sys2Proof/Machine/Asm.lean ====
section
/-! DEFINITION. The assembly syntax (spec 30_encoding.md R82) and the pseudo-instructions with their time cursor (R83). A
program is a schedule: assembling it gives the list of events that `State.schedule` holds. Conventions: log 18. -/

namespace Sys2Proof.Machine

/-- One line of a program (R82, R83). -/
inductive AsmLine where
  | command (c : AsmCommand)
  | txStep
  | txRun
  | t0 (v : Nat)
  | dur (d : Nat)
  | sync
  | bit0
  | bit1
  | code64 (c : Nat)
  | word (v : Nat)
  deriving DecidableEq, Repr

/-- The nominal durations of one symbol, high phase first (R83). -/
def symbolDurations (x : SymbolTiming) : List U32 := [x.high.nom, x.low.nom]

/-- The durations of `BIT1` or `BIT0` (R83). -/
def bitDurations (tm : TimingModel) (b : Bool) : List U32 :=
  if b then symbolDurations tm.one else symbolDurations tm.zero

/-- The durations of `CODE64 c`: `SYNC`, then for j in 0..63 `BIT1` if c[j] = 1 else `BIT0` (R83). -/
def code64Durations (tm : TimingModel) (c : U64) : List U32 :=
  symbolDurations tm.sync ++ (List.range 64).flatMap fun j => bitDurations tm (c.getLsbD j)

/-- The timestamps of the EDGEs that `DUR d` lines give from cursor `T`: each is the cursor after its duration (R83). -/
def timesOf (T : U32) : List U32 → List U32
  | [] => []
  | d :: ds => (T + d) :: timesOf (T + d) ds

/-- The cursor after `DUR d` lines (R83). -/
def cursorAfter (T : U32) : List U32 → U32
  | [] => T
  | d :: ds => cursorAfter (T + d) ds

/-- The event of a legal command, on its agent's port (log 17). -/
def commandEvent (i : Instr) : Event := .command (.ofInstr i) (encode i)

/-- `DUR d` lines: EDGE commands, and the cursor after them (R83). -/
def assembleDurations (T : U32) (ds : List U32) : U32 × List Event :=
  (cursorAfter T ds, (timesOf T ds).map fun t => commandEvent (.edge t))

/-- One line: the cursor after it and its events, or none: an assembly error, an operand out of range (R82). -/
def assembleLine (tm : TimingModel) (T : U32) : AsmLine → Option (U32 × List Event)
  | .command c => c.toInstr?.map fun i => (T, [commandEvent i])
  | .txStep => some (T, [.txStep])
  | .txRun => some (T, [.txRun])
  | .t0 v => if v < 2 ^ 32 then some (BitVec.ofNat 32 v, []) else none
  | .dur d => if d < 2 ^ 32 then some (assembleDurations T [BitVec.ofNat 32 d]) else none
  | .sync => some (assembleDurations T (symbolDurations tm.sync))
  | .bit0 => some (assembleDurations T (bitDurations tm false))
  | .bit1 => some (assembleDurations T (bitDurations tm true))
  | .code64 c => if c < 2 ^ 64 then some (assembleDurations T (code64Durations tm (BitVec.ofNat 64 c))) else none
  | .word v => if v < 2 ^ 96 then some (T, [.command (.ofWord (BitVec.ofNat 96 v)) (BitVec.ofNat 96 v)]) else none

/-- A program: the events of its lines in the order written (R82). -/
def assemble (tm : TimingModel) (T : U32) : List AsmLine → Option (List Event)
  | [] => some []
  | l :: ls =>
    match assembleLine tm T l with
    | none => none
    | some (T', es) => (assemble tm T' ls).map fun rest => es ++ rest

/-- The value of a digit in base 10 or 16 (R82). -/
def digitValue (base : Nat) (c : Char) : Option Nat :=
  let n := c.toNat
  let v := if 48 ≤ n ∧ n ≤ 57 then n - 48 else if 97 ≤ n ∧ n ≤ 102 then n - 87 else if 65 ≤ n ∧ n ≤ 70 then n - 55 else 99
  if v < base then some v else none

/-- Digits with single underscores between them: "`_` may separate digits" (R82). -/
def parseDigits (base acc : Nat) (afterDigit : Bool) : List Char → Option Nat
  | [] => if afterDigit then some acc else none
  | c :: cs =>
    if c = '_' then (if afterDigit then parseDigits base acc false cs else none)
    else match digitValue base c with
      | some d => parseDigits base (acc * base + d) true cs
      | none => none

/-- "Numbers are decimal, or hexadecimal with a `0x` prefix" (R82). -/
def parseNumber : List Char → Option Nat
  | '0' :: 'x' :: cs => parseDigits 16 0 false cs
  | cs => parseDigits 10 0 false cs

/-- The characters before a comment: "`;` to end of line is a comment" (R82). -/
def stripComment (cs : List Char) : List Char := cs.takeWhile (· ≠ ';')

/-- A blank within a line. -/
def isBlank (c : Char) : Bool := c = ' ' || c = '\t' || c = '\r'

/-- A field without the blanks around it. -/
def trimBlanks (cs : List Char) : List Char := ((cs.dropWhile isBlank).reverse.dropWhile isBlank).reverse

/-- The fields of a text separated by a character. -/
def splitFields (sep : Char) : List Char → List (List Char)
  | [] => [[]]
  | c :: cs =>
    match splitFields sep cs with
    | [] => [[c]]
    | f :: fs => if c = sep then [] :: f :: fs else (c :: f) :: fs

/-- The numbers of a comma-separated operand field; a blank field has no operand. -/
def parseOperands (cs : List Char) : Option (List Nat) :=
  if trimBlanks cs = [] then some []
  else (splitFields ',' cs).mapM fun f => parseNumber (trimBlanks f)

/-- The names of R82 and R83, each with the line it makes of its operands. -/
def lineOf (name : String) (ops : List Nat) : Option AsmLine :=
  match ops with
  | [] =>
    if name = "RD_ACQUIRE" then some (.command .rdAcquire)
    else if name = "STATUS" then some (.command .status)
    else if name = "TXSTEP" then some .txStep
    else if name = "TXRUN" then some .txRun
    else if name = "SYNC" then some .sync
    else if name = "BIT0" then some .bit0
    else if name = "BIT1" then some .bit1
    else none
  | [a] =>
    if name = "EDGE" then some (.command (.edge a))
    else if name = "RD_RELEASE" then some (.command (.rdRelease a))
    else if name = ".t0" then some (.t0 a)
    else if name = "DUR" then some (.dur a)
    else if name = "CODE64" then some (.code64 a)
    else if name = ".word" then some (.word a)
    else none
  | [a, b] =>
    if name = "RD_BIT" then some (.command (.rdBit a b))
    else if name = "RD_WORD" then some (.command (.rdWord a b))
    else if name = "TX_START" then some (.command (.txStart a b))
    else none
  | _ => none

/-- One line of text: `some none` for a line without a command, `none` for a line that is an assembly error (R82). -/
def parseLine (text : List Char) : Option (Option AsmLine) :=
  let body := trimBlanks (stripComment text)
  if body = [] then some none
  else
    let name := body.takeWhile fun c => !isBlank c
    (parseOperands (body.drop name.length)).bind fun ops => (lineOf (String.ofList name) ops).map some

/-- A program text, one command per line (R82). -/
def parseProgram (text : List Char) : Option (List AsmLine) :=
  ((splitFields '\n' text).mapM parseLine).map fun ls => ls.filterMap id

end Sys2Proof.Machine
end

