-- ==== Sys2Proof/Safety.lean ====
section
/-! DEFINITION. What claims are stated in: good final states (spec 60_exceptions.md R202, R204), the invariants of
10_state.md R33, the ring as a queue of frames (41_pulse_ring.md R102), what a consumer can see of the frame storage
(10_state.md R29), the agents' duties (70 R234, R235, R239) and runs of several commands. -/

namespace Sys2Proof.Machine

/-- A state that may be a good final state: no fault recorded (R202) and no refusal (R204). -/
def State.good (s : State) : Bool := s.fault.isEmpty && !s.refused

/-- The ring invariants of R33: INV1 to INV4, and R28 for the write slot. -/
structure Ring.Inv (r : Ring) : Prop where
  /-- INV1: `buffered` is in 0..7. -/
  buffered_le : r.buffered ≤ 7
  /-- INV1: slot `wr` is never committed. -/
  write_not_committed : r.committed r.wr = false
  /-- INV2: every committed slot has a size of 1 to 128. -/
  committed_size : ∀ s, r.committed s = true → 1#8 ≤ (r.slots.frame s).size ∧ (r.slots.frame s).size ≤ 128#8
  /-- INV3: every slot neither committed nor `wr` has size 0. -/
  free_size : ∀ s, r.committed s = false → s ≠ r.wr → (r.slots.frame s).size = 0#8
  /-- INV4: when full, the write slot is empty. -/
  full_write_empty : r.full = true → (r.slots.frame r.wr).size = 0#8
  /-- R28: the write slot's size is 0..128. -/
  write_size : (r.slots.frame r.wr).size ≤ 128#8

/-- The TX invariants: INV7 of R33, and R176: the pin is high exactly between a high segment and the low one after it. -/
structure Encoder.Inv (e : Encoder) : Prop where
  /-- INV7, idle. -/
  idle : e.busy = false → e.repLeft = 0#8 ∧ e.pos = 0#7 ∧ e.phase = .high
  /-- INV7, busy. -/
  busy : e.busy = true → 1 ≤ e.repLeft.toNat ∧ e.pos.toNat ≤ 64
  /-- R176. -/
  pin : e.pin = true ↔ e.phase = .low

/-- The invariant of the machine (R33). INV5 holds by the type of `dec_state`; for INV6 see log 23. -/
structure State.Inv (s : State) : Prop where
  ring : s.ring.Inv
  enc : s.enc.Inv

/-- The committed frames, oldest first, each as its sequence of bits (R102: "frames come out in commit order"). -/
def Ring.queue (r : Ring) : List (List Bool) :=
  (List.range r.buffered).map fun k => (r.slots.frame (r.rd + Fin.ofNat 8 k)).content

/-- The frame in progress: the bits held so far in the write slot (R12). -/
def Ring.inProgress (r : Ring) : List Bool := (r.slots.frame r.wr).content

/-- Two frames that agree on everything below their size; the bits at or beyond it are free (R29). -/
def Frame.SameVisible (f g : Frame) : Prop := f.size = g.size ∧ ∀ i, i < f.size.toNat → f.read i = g.read i

/-- Two states that differ at most in stored bits at or beyond the size of their slot (R29, I-3, I-4). -/
structure State.SameVisible (s u : State) : Prop where
  rest : u.withRing s.ring = s
  rd : u.ring.rd = s.ring.rd
  wr : u.ring.wr = s.ring.wr
  slots : ∀ k, (s.ring.slots.frame k).SameVisible (u.ring.slots.frame k)

/-- Two outcomes of a step that agree in kind and, for next states, up to unobservable bits. -/
def SameVisibleOutcome : Host.Outcome State Fault Refusal → Host.Outcome State Fault Refusal → Prop
  | .next s, .next u => s.SameVisible u
  | .fault a, .fault b => a = b
  | .refused a, .refused b => a = b
  | .next _, .fault _ => False
  | .next _, .refused _ => False
  | .fault _, .next _ => False
  | .fault _, .refused _ => False
  | .refused _, .next _ => False
  | .refused _, .fault _ => False

/-- The exact condition of CONSUMER_PROTOCOL for a command (R201). -/
def consumerFaults (s : State) : Instr → Bool
  | .edge _ => false
  | .rdAcquire => false
  | .rdBit sl _ => !s.ring.isHead sl
  | .rdWord sl _ => !s.ring.isHead sl
  | .rdRelease sl => (s.ring.slots.frame sl).size != 0 && !s.ring.isHead sl
  | .txStart _ _ => false
  | .status => false

/-- The exact condition of TX_BUSY for a command (R203). -/
def txFaults (s : State) : Instr → Bool
  | .edge _ => false
  | .rdAcquire => false
  | .rdBit _ _ => false
  | .rdWord _ _ => false
  | .rdRelease _ => false
  | .txStart _ _ => s.enc.busy
  | .status => false

/-- The consumer's duty for the next event (R234, R107): a read names the head slot of a non-empty ring, a release names
the head slot or an already released one. -/
def State.consumerKeepsProtocol (s : State) : Prop :=
  ∀ p w rest i, s.schedule = .command p w :: rest → decode w = .command i → consumerFaults s i = false

/-- The TxCaller's duty for the next event (R171, R239): while `tx_busy = 1` the TxCaller has no step. -/
def State.txCallerKeepsHold (s : State) : Prop :=
  ∀ w rest, s.schedule = .command .tx w :: rest → s.enc.busy = false

/-- The next event is the reset input (R230). -/
def State.resetPending (s : State) : Bool :=
  match s.schedule with
  | .reset _ _ :: _ => true
  | .command _ _ :: _ => false
  | .txStep :: _ => false
  | .txRun :: _ => false
  | [] => false

/-- The bits of a code, bit 0 first: the content of a frame that holds it (R52, R54). -/
def codeBits (c : U64) : List Bool := (List.range 64).map c.getLsbD

/-- An EDGE command. -/
def Instr.isEdge : Instr → Bool
  | .edge _ => true
  | .rdAcquire => false
  | .rdBit _ _ => false
  | .rdWord _ _ => false
  | .rdRelease _ => false
  | .txStart _ _ => false
  | .status => false

/-- Several commands, one after the other, each an atomic step (R59). -/
def execAll : List Instr → State → Host.Outcome State Fault Refusal
  | [], s => .next s
  | i :: is, s =>
    match exec i s with
    | .next t => execAll is t
    | .fault e => .fault e
    | .refused r => .refused r

/-- The EDGE commands whose durations, measured from the last edge, are `ds` (R83). -/
def edgesFrom (lastEdge : U32) (ds : List U32) : List Instr := (timesOf lastEdge ds).map .edge

/-- The write slot after the sync-high that opens a burst (R151): the old one when it was empty, else the next. -/
def Ring.burstSlot (r : Ring) : SlotIdx :=
  if (r.slots.frame r.wr).size = 0#8 then r.wr else nextSlot r.wr

/-- The ring has room for a burst (R151): `buffered ≤ 5`, or `buffered = 6` with `size[wr] = 0`. -/
def Ring.roomForBurst (r : Ring) : Prop :=
  r.buffered ≤ 5 ∨ (r.buffered = 6 ∧ (r.slots.frame r.wr).size = 0#8)

end Sys2Proof.Machine
end

