-- ==== Sys2Proof/Certificates/Slice0/Obligations.lean ====
section
/-! DEFINITION. The statements for the provers. Each formalises the rule of spec/ that its docstring names. -/

open Sys2Proof Sys2Proof.Machine

/-! ## Reset -/

/-- R34: the value of every state element after reset, for every TimingModel, every LAST_EDGE_INIT and every content of
the bit storage; and in `State.reset`, the value of every element that R34 gives one. -/
def Obligations.ResetGivesTheListedValues : Prop :=
  (∀ (tm : TimingModel) (le : U32) (bits : Vector SlotBits 8),
    (State.atReset tm le bits).tm = tm
    ∧ (State.atReset tm le bits).dec = ⟨.waitingForSync, le⟩
    ∧ (State.atReset tm le bits).ring.rd = 0
    ∧ (State.atReset tm le bits).ring.wr = 0
    ∧ (∀ k, ((State.atReset tm le bits).ring.slots.frame k).size = 0#8)
    ∧ (∀ k i, (State.atReset tm le bits).ring.slots.read k i = (bits[k.val]).getLsbD i)
    ∧ (State.atReset tm le bits).enc = ⟨false, false, 0#64, 0#8, 0#7, .high⟩
    ∧ (State.atReset tm le bits).fault = []
    ∧ (State.atReset tm le bits).refused = false
    ∧ (State.atReset tm le bits).trace = [])
  ∧ State.reset.dec.state = .waitingForSync ∧ State.reset.ring.rd = 0 ∧ State.reset.ring.wr = 0
  ∧ (∀ k, (State.reset.ring.slots.frame k).size = 0#8)
  ∧ State.reset.enc = ⟨false, false, 0#64, 0#8, 0#7, .high⟩
  ∧ State.reset.fault = [] ∧ State.reset.refused = false ∧ State.reset.trace = []

/-- R230, R231: the reset input gives every element its reset value at once, whatever the block was doing, and leaves `TM`
alone. That the events still to come stay in the schedule is the model's (log 1), as are the values 0 and the consumer port
of the response fields after reset (log 7), and that the fault, refusal and segment records are emptied is log 12. -/
def Obligations.ResetInputGivesResetStateAndKeepsTM : Prop :=
  ∀ (s : State) (le : U32) (bits : Vector SlotBits 8) (rest : List Event),
    s.schedule = .reset le bits :: rest →
    step s = .next { State.atReset s.tm le bits with schedule := rest }

/-- R33 at reset: the invariant holds after reset, whatever the spec leaves open there, and so in `State.reset`. -/
def Obligations.InvariantHoldsAtReset : Prop :=
  (∀ (tm : TimingModel) (le : U32) (bits : Vector SlotBits 8), (State.atReset tm le bits).Inv) ∧ State.reset.Inv

/-- R33, R176, R28: every step keeps the invariant, from every state that has it. -/
def Obligations.EveryStepKeepsInvariant : Prop :=
  ∀ s t : State, s.Inv → step s = .next t → t.Inv

/-- R28: no size register ever leaves 0..128, from any state whose sizes are in it. -/
def Obligations.EveryStepKeepsSizesInRange : Prop :=
  ∀ s t : State, s.ring.slots.wf = true → step s = .next t → t.ring.slots.wf = true

/-- R150: the first EDGE after reset has an effect on the decoder only if its duration, measured from LAST_EDGE_INIT, is
in sync.high; it commits nothing either way, and answers 0 (R75). -/
def Obligations.FirstEdgeAfterReset : Prop :=
  ∀ (tm : TimingModel) (le t : U32) (bits : Vector SlotBits 8),
    exec (.edge t) (State.atReset tm le bits) =
      .next { State.atReset tm le bits with
        dec := ⟨if inWin (t - le) tm.sync.high then .waitingForLowSync else .waitingForSync, t⟩
        resp := 0 }

/-! ## Encoding -/

/-- R70 to R73: decoding the word of a command gives the command, with every operand at every value. -/
def Obligations.DecodeOfEncodeIsTheCommand : Prop :=
  ∀ i : Instr, i.wellFormed = true → decode (encode i) = .command i

/-- R72: a legal word has no bit that its command does not account for: encoding what was decoded gives the word back. -/
def Obligations.EncodeOfDecodeIsTheWord : Prop :=
  ∀ (w : CmdWord) (i : Instr), decode w = .command i → encode i = w

/-- R76: a word is a command exactly when it matches a row of the table, it matches at most one row, and the command is
the one that row names. -/
def Obligations.LegalWordsMatchExactlyOneRow : Prop :=
  ∀ w : CmdWord,
    ((∃ i, decode w = .command i) ↔ ∃ r ∈ commandTable, w &&& r.mask = r.matchBits)
    ∧ (∀ r ∈ commandTable, ∀ r' ∈ commandTable, w &&& r.mask = r.matchBits → w &&& r'.mask = r'.matchBits → r = r')
    ∧ (∀ i, decode w = .command i → ∃ r ∈ commandTable, w &&& r.mask = r.matchBits ∧ r.mnemonic = i.mnemonic)

/-- R77: every word whose op is 0x0 or 0x8 to 0xF is illegal, whatever its other bits. -/
def Obligations.ReservedOpsAreIllegal : Prop :=
  ∀ w : CmdWord, (opField w = 0#4 ∨ 8#4 ≤ opField w) → decode w = .illegal (.reservedOp (opField w))

/-- Words written out from the encodings of R70 and R72 (95_test_vectors.md L2.7), one of every command, and the illegal
ones. -/
def Obligations.WordsOfTheSpecDecode : Prop :=
  decode 0x000000000000145000000001#96 = .command (.edge 5200)
  ∧ decode 0x000000000000000000000002#96 = .command .rdAcquire
  ∧ decode 0x000000000000000000007F03#96 = .command (.rdBit 0 127)
  ∧ decode 0x000000000000000000000104#96 = .command (.rdWord 0 1)
  ∧ decode 0x000000000000000000000075#96 = .command (.rdRelease 7)
  ∧ decode 0x0123456789ABCDEF00010006#96 = .command (.txStart 0x0123456789ABCDEF 1)
  ∧ decode 0x000000000000000000000007#96 = .command .status
  ∧ decode 0x000000010000000000000001#96 = .illegal (.nonzeroReservedBits 1)
  ∧ decode 0x000000000000000000000204#96 = .illegal (.nonzeroReservedBits 4)
  ∧ decode 0x000000000000000000000085#96 = .illegal (.nonzeroReservedBits 5)
  ∧ decode 0x000000000000000001000002#96 = .illegal (.nonzeroReservedBits 2)

/-! ## The step -/

/-- A step runs the decoded command: when the next event brings a legal word to a port whose agent issues that command
(R71), the step is `exec` of it, with the event consumed and the response addressed to the port (R74). At a port whose
agent does not issue it there is no run (R212; the refusal is the model's, log 3). -/
def Obligations.StepRunsTheDecodedCommand : Prop :=
  ∀ (s : State) (p : Port) (w : CmdWord) (rest : List Event) (i : Instr),
    s.schedule = .command p w :: rest → decode w = .command i →
    (p.mayIssue i = true → step s = exec i { s with respTo := p, schedule := rest })
    ∧ (p.mayIssue i = false → step s = .refused (.foreignCommand p))

/-- R204: a word that matches no row of the table sets `refused` and changes nothing else, and the state is not a good final
one. The model's own in it: the event is consumed (log 1), and the response stays as it was (log 6). -/
def Obligations.IllegalWordOnlySetsRefused : Prop :=
  ∀ (s : State) (p : Port) (w : CmdWord) (rest : List Event),
    s.schedule = .command p w :: rest → (∀ r ∈ commandTable, w &&& r.mask ≠ r.matchBits) →
    ∃ t, step s = .next t ∧ t = { s with schedule := rest, refused := true } ∧ t.good = false

/-- R217, R218: with no event pending and no transmission running, nothing changes. -/
def Obligations.IdleBlockHoldsItsState : Prop :=
  ∀ s : State, s.schedule = [] → s.enc.busy = false → step s = .next s

/-- R206: no step of the machine ends in a fault outcome (faults are recorded, log 4), no command of any kind is refused,
and a step stops only on a move no agent has (log 3). -/
def Obligations.CommandsAlwaysComplete : Prop :=
  (∀ (i : Instr) (s : State), ∃ t, exec i s = .next t)
  ∧ (∀ (s : State) (f : Fault), step s ≠ .fault f)
  ∧ (∀ (s : State) (r : Refusal), step s = .refused r →
      (r = .txSequencerNotEnabled ∧ s.enc.busy = false ∧ ∃ rest, s.schedule = .txStep :: rest)
      ∨ ∃ p w i rest, r = .foreignCommand p ∧ s.schedule = .command p w :: rest ∧ decode w = .command i
          ∧ p.mayIssue i = false)

/-- R24, R230: no step changes `TM`, not even reset. -/
def Obligations.NoStepChangesTM : Prop :=
  ∀ s t : State, step s = .next t → t.tm = s.tm

/-- R31, R202, R204: no step but the reset input removes an entry of `fault` or of `trace`, clears `refused`, or makes a
state good again. -/
def Obligations.RecordsOnlyGrow : Prop :=
  ∀ s t : State, step s = .next t → s.resetPending = false →
    s.fault <+: t.fault ∧ s.trace <+: t.trace ∧ (s.refused = true → t.refused = true) ∧ (s.good = false → t.good = false)

/-! ## Timing model -/

/-- R132, R133: the window test is strict at both bounds, and a window with `max ≤ min + 1` (as numbers) holds no
duration. -/
def Obligations.WindowTestIsStrict : Prop :=
  (∀ (d : U32) (w : PhaseTiming), inWin d w = true ↔ w.min.toNat < d.toNat ∧ d.toNat < w.max.toNat)
  ∧ ∀ (d : U32) (w : PhaseTiming), w.max.toNat ≤ w.min.toNat + 1 → inWin d w = false

/-- R131: DeriveBounds is exact, and a configuration that would wrap is rejected. -/
def Obligations.DeriveBoundsIsExactOrRejected : Prop :=
  ∀ nom dmin dmax : U32,
    (∀ lo hi : U32, deriveBounds nom dmin dmax = some (lo, hi) →
      lo.toNat + dmin.toNat = nom.toNat ∧ hi.toNat = nom.toNat + dmax.toNat)
    ∧ (deriveBounds nom dmin dmax = none ↔ nom.toNat < dmin.toNat ∨ 2 ^ 32 ≤ nom.toNat + dmax.toNat)

/-- R130, R134: the default TimingModel is the one that the nominal durations and the tolerances of the table construct,
and it accepts exactly the durations of the table of R134. The construction is the spec's own reading of the tolerances
(R131, decision D8), which the model renders as the function `constructTM` (log 22). -/
def Obligations.DefaultWindows : Prop :=
  constructTM ⟨5200, 200, 200⟩ ⟨600, 100, 100⟩ ⟨600, 100, 100⟩ ⟨200, 50, 150⟩ ⟨200, 50, 150⟩ ⟨600, 100, 100⟩
    = some Config.defaultTM
  ∧ ∀ d : U32,
    (inWin d Config.defaultTM.sync.high = true ↔ 5001 ≤ d.toNat ∧ d.toNat ≤ 5399)
    ∧ (inWin d Config.defaultTM.sync.low = true ↔ 501 ≤ d.toNat ∧ d.toNat ≤ 699)
    ∧ (inWin d Config.defaultTM.zero.high = true ↔ 501 ≤ d.toNat ∧ d.toNat ≤ 699)
    ∧ (inWin d Config.defaultTM.zero.low = true ↔ 151 ≤ d.toNat ∧ d.toNat ≤ 349)
    ∧ (inWin d Config.defaultTM.one.high = true ↔ 151 ≤ d.toNat ∧ d.toNat ≤ 349)
    ∧ (inWin d Config.defaultTM.one.low = true ↔ 501 ≤ d.toNat ∧ d.toNat ≤ 699)

/-! ## The ring's conditions and its packed index -/

/-- R23: `empty`, `full` and `buffered`. -/
def Obligations.RingConditions : Prop :=
  ∀ r : Ring,
    r.buffered = (r.wr.val + 8 - r.rd.val) % 8
    ∧ (r.empty = true ↔ r.rd = r.wr) ∧ (r.empty = true ↔ r.buffered = 0)
    ∧ (r.full = true ↔ r.rd.val = (r.wr.val + 1) % 8) ∧ (r.full = true ↔ r.buffered = 7)

/-- R63: whatever the other side does to its own half between a load and a swap, the compare-and-swap loop advances the
caller's half by exactly one and leaves in the other half a value the other side put there. Without interference it is the
one atomic update that the model makes. -/
def Obligations.CompareAndSwapLoopAdvancesOwnHalfOnce : Prop :=
  (∀ (h : RingHalf) (x : BitVec 6) (vs : List (BitVec 3)),
    h.get (casAdvance h x vs) = h.get x + 1
    ∧ (h.other.get (casAdvance h x vs) = h.other.get x ∨ h.other.get (casAdvance h x vs) ∈ vs))
  ∧ ∀ r : Ring,
    casAdvance .write r.index [] = { r with wr := nextSlot r.wr }.index
    ∧ casAdvance .read r.index [] = { r with rd := nextSlot r.rd }.index

/-! ## EDGE -/

/-- R144 (R140 step 1): with the ring full, EDGE sets WaitingForSync and `last_edge`, and changes nothing else, whatever
the duration, a sync-high included. -/
def Obligations.EdgeOnFullRing : Prop :=
  ∀ (s : State) (t : U32), s.ring.rd = s.ring.wr + 1 →
    exec (.edge t) s = .next { s with dec := ⟨.waitingForSync, t⟩, resp := 0 }

/-- R144: as long as the ring is full, any number of edges leaves every stored frame, both indices and the write slot as
they are, and the decoder in WaitingForSync. -/
def Obligations.FullRingDropsWholeBursts : Prop :=
  ∀ (s : State) (ts : List U32) (t : U32), s.ring.full = true →
    ∃ u, execAll ((ts ++ [t]).map .edge) s = .next u ∧ u.ring = s.ring ∧ u.dec = ⟨.waitingForSync, t⟩
      ∧ u.enc = s.enc ∧ u.fault = s.fault ∧ u.trace = s.trace

/-- R140 step 2, R101: a sync-high on a ring that is not full advances `wr` when the write slot holds bits, in every
decoder state, and sets WaitingForLowSync. -/
def Obligations.EdgeOnSyncHigh : Prop :=
  ∀ (s : State) (t : U32), s.ring.rd ≠ s.ring.wr + 1 → inWin (t - s.dec.lastEdge) s.tm.sync.high = true →
    exec (.edge t) s = .next { s with
      dec := ⟨.waitingForLowSync, t⟩
      ring := { s.ring with wr := if (s.ring.slots.frame s.ring.wr).size = 0 then s.ring.wr else s.ring.wr + 1 }
      resp := 0 }

/-- R142 (R140 step 3): the table, for an EDGE taken while the ring is not full and the duration is not in sync.high. -/
def Obligations.EdgeStateTable : Prop :=
  ∀ (s : State) (t : U32), s.ring.rd ≠ s.ring.wr + 1 → inWin (t - s.dec.lastEdge) s.tm.sync.high = false →
    let d := t - s.dec.lastEdge
    let goes := fun (st : DecState) (r : Ring) => exec (.edge t) s = .next { s with dec := ⟨st, t⟩, ring := r, resp := 0 }
    let appended := fun (b : Bool) => { s.ring with slots := s.ring.slots.append s.ring.wr b }
    (s.dec.state = .waitingForSync → goes .waitingForSync s.ring)
    ∧ (s.dec.state = .waitingForLowSync → inWin d s.tm.sync.low = true → goes .waitingForHigh s.ring)
    ∧ (s.dec.state = .waitingForLowSync → inWin d s.tm.sync.low = false → goes .waitingForSync s.ring)
    ∧ (s.dec.state = .waitingForHigh → inWin d s.tm.zero.high = true → goes .waitingForLowZero s.ring)
    ∧ (s.dec.state = .waitingForHigh → inWin d s.tm.zero.high = false → inWin d s.tm.one.high = true →
        goes .waitingForLowOne s.ring)
    ∧ (s.dec.state = .waitingForHigh → inWin d s.tm.zero.high = false → inWin d s.tm.one.high = false →
        goes .waitingForSync s.ring)
    ∧ (s.dec.state = .waitingForLowZero → inWin d s.tm.zero.low = true → goes .waitingForHigh (appended false))
    ∧ (s.dec.state = .waitingForLowZero → inWin d s.tm.zero.low = false → goes .waitingForSync s.ring)
    ∧ (s.dec.state = .waitingForLowOne → inWin d s.tm.one.low = true → goes .waitingForHigh (appended true))
    ∧ (s.dec.state = .waitingForLowOne → inWin d s.tm.one.low = false → goes .waitingForSync s.ring)

/-- R141: Append below capacity writes the bit at the position equal to the size and increments the size, at capacity it
changes nothing; every other bit and every other slot stays. -/
def Obligations.AppendWritesAtTheSize : Prop :=
  ∀ (m : Memory) (k : SlotIdx) (b : Bool),
    ((m.frame k).size.toNat < 128 →
      ((m.append k b).frame k).size.toNat = (m.frame k).size.toNat + 1
      ∧ (∀ i, (m.append k b).read k i = if i = (m.frame k).size.toNat then b else m.read k i)
      ∧ ∀ k', k' ≠ k → (m.append k b).frame k' = m.frame k')
    ∧ (128 ≤ (m.frame k).size.toNat → m.append k b = m)

/-- R140, R147: EDGE always completes, and its frame. The one bit it can store is the one at `(wr, size[wr])`, when the
ring is not full, the duration is not a sync-high, the table appends and the frame is below capacity; every other bit of
the storage reads as before. It never writes `rd` or a slot other than `wr`. -/
def Obligations.EdgeFrame : Prop :=
  ∀ (s : State) (t : U32), ∃ u, exec (.edge t) s = .next u
    ∧ u.dec.lastEdge = t ∧ u.resp = 0
    ∧ u.tm = s.tm ∧ u.enc = s.enc ∧ u.fault = s.fault ∧ u.refused = s.refused ∧ u.trace = s.trace
    ∧ u.respTo = s.respTo ∧ u.schedule = s.schedule ∧ u.ring.rd = s.ring.rd
    ∧ (∀ k, k ≠ s.ring.wr → u.ring.slots.frame k = s.ring.slots.frame k)
    ∧ (∀ k i, u.ring.slots.read k i =
        if k = s.ring.wr ∧ i = (s.ring.slots.frame s.ring.wr).size.toNat ∧ i < 128 ∧ s.ring.full = false
            ∧ inWin (t - s.dec.lastEdge) s.tm.sync.high = false
        then (classify s.tm s.dec.state (t - s.dec.lastEdge)).2.getD (s.ring.slots.read k i)
        else s.ring.slots.read k i)

/-- R145: the effect of EDGE depends on its timestamp only through the difference modulo 2^32: shifting the counter, past
its wrap too, changes nothing but the recorded timestamp. -/
def Obligations.EdgeDependsOnlyOnTheDifference : Prop :=
  ∀ (s : State) (t k : U32) (u v : State),
    exec (.edge t) s = .next u →
    exec (.edge (t + k)) { s with dec := ⟨s.dec.state, s.dec.lastEdge + k⟩ } = .next v →
    v.dec.state = u.dec.state ∧ v.ring = u.ring ∧ v.dec.lastEdge = u.dec.lastEdge + k

/-- R146: at the defaults, from any decoder state, a sync-high and a sync-low re-lock the phase with an empty write slot,
where the ring has room for the sync-high's commit. -/
def Obligations.SyncSymbolRelocksTheDecoder : Prop :=
  ∀ (s : State) (d e : U32), s.Inv → s.tm = Config.defaultTM → s.ring.roomForBurst →
    inWin d s.tm.sync.high = true → inWin e s.tm.sync.low = true →
    ∃ u, execAll (edgesFrom s.dec.lastEdge [d, e]) s = .next u ∧ u.dec.state = .waitingForHigh
      ∧ u.ring.wr = s.ring.burstSlot ∧ (u.ring.slots.frame u.ring.wr).size = 0#8

/-! ## Consumer commands -/

/-- R102, R75: RD_ACQUIRE answers 0 on an empty ring, else valid = 1, the head slot and its size, and changes nothing but
the response. -/
def Obligations.AcquireAnswersTheHeadSlot : Prop :=
  ∀ s : State, ∃ r : RespWord, exec .rdAcquire s = .next { s with resp := r }
    ∧ (s.ring.rd = s.ring.wr → r = 0)
    ∧ (s.ring.rd ≠ s.ring.wr →
        r.getLsbD 0 = true ∧ (r.extractLsb' 1 3).toNat = s.ring.rd.val
        ∧ r.extractLsb' 4 8 = (s.ring.slots.frame s.ring.rd).size ∧ r.extractLsb' 12 52 = 0#52)

/-- R103: on the head slot of a non-empty ring, RD_BIT answers the stored bit below the size and 0 at or beyond it, and
changes nothing but the response. -/
def Obligations.ReadBitOfTheHeadFrame : Prop :=
  ∀ (s : State) (i : BitIdx), s.ring.rd ≠ s.ring.wr →
    exec (.rdBit s.ring.rd i) s = .next { s with
      resp := if i.val < (s.ring.slots.frame s.ring.rd).size.toNat ∧ s.ring.slots.read s.ring.rd i.val = true
        then 1#64 else 0#64 }

/-- R104: on the head slot of a non-empty ring, bit j of RD_WORD(s, w) is the stored bit at 64w + j below the size, else 0,
and nothing but the response changes. -/
def Obligations.ReadWordOfTheHeadFrame : Prop :=
  ∀ (s : State) (w : WordSel), s.ring.rd ≠ s.ring.wr →
    ∃ r : RespWord, exec (.rdWord s.ring.rd w) s = .next { s with resp := r }
      ∧ ∀ j, j < 64 → r.getLsbD j =
          (decide (64 * w.val + j < (s.ring.slots.frame s.ring.rd).size.toNat)
            && s.ring.slots.read s.ring.rd (64 * w.val + j))

/-- R55: RD_BIT(s, i) equals bit (i mod 64) of RD_WORD(s, i div 64), for every i. -/
def Obligations.ReadBitAgreesWithReadWord : Prop :=
  ∀ (s u v : State) (sl : SlotIdx) (i : BitIdx) (w : WordSel), s.ring.isHead sl = true → w.val = i.val / 64 →
    exec (.rdBit sl i) s = .next u → exec (.rdWord sl w) s = .next v →
    u.resp.getLsbD 0 = v.resp.getLsbD (i.val % 64) ∧ u.resp.toNat ≤ 1

/-- R53, R104: for a committed head frame that is valid (size exactly 64), word 0 is its 64-bit value and word 1 is 0. -/
def Obligations.ValidFrameReadsAsItsValue : Prop :=
  ∀ (s u v : State), s.ring.rd ≠ s.ring.wr → (s.ring.slots.frame s.ring.rd).isValid = true →
    exec (.rdWord s.ring.rd 0) s = .next u → exec (.rdWord s.ring.rd 1) s = .next v →
    u.resp = (s.ring.slots.frame s.ring.rd).value ∧ v.resp = 0#64
    ∧ ∀ j, j < 64 → u.resp.getLsbD j = s.ring.slots.read s.ring.rd j

/-- R105: RD_RELEASE. A slot of size 0 is a no-op; the head slot of a non-empty ring gets size 0 and `rd` advances, its bits
staying; any other slot that holds bits is CONSUMER_PROTOCOL, which changes nothing else but the response. -/
def Obligations.ReleaseOfASlot : Prop :=
  ∀ (s : State) (k : SlotIdx),
    ((s.ring.slots.frame k).size = 0 → exec (.rdRelease k) s = .next { s with resp := 0 })
    ∧ ((s.ring.slots.frame k).size ≠ 0 → s.ring.rd ≠ s.ring.wr → k = s.ring.rd →
        exec (.rdRelease k) s = .next { s with
          ring := { s.ring with
            rd := s.ring.rd + 1
            slots := s.ring.slots.setFrame k { s.ring.slots.frame k with size := 0 } }
          resp := 0 })
    ∧ ((s.ring.slots.frame k).size ≠ 0 → (s.ring.rd = s.ring.wr ∨ k ≠ s.ring.rd) →
        ∃ r, exec (.rdRelease k) s = .next { s with
          fault := s.fault ++ [⟨.consumerProtocol, encode (.rdRelease k)⟩], resp := r })

/-- R58, R105: release is idempotent: when the first release of a slot raised no fault, a second one changes nothing and
raises none. -/
def Obligations.ReleaseIsIdempotent : Prop :=
  ∀ (s t : State) (k : SlotIdx), exec (.rdRelease k) s = .next t → t.fault = s.fault → exec (.rdRelease k) t = .next t

/-- R201, R202: RD_BIT and RD_WORD on an empty ring or on a slot that is not the head record CONSUMER_PROTOCOL with the
command word, and change nothing else but the response, whose value is not stated (I-14). -/
def Obligations.ReadsOutsideTheProtocolAreRecorded : Prop :=
  ∀ (s : State) (k : SlotIdx) (i : BitIdx) (w : WordSel), (s.ring.rd = s.ring.wr ∨ k ≠ s.ring.rd) →
    (∃ r, exec (.rdBit k i) s = .next { s with
      fault := s.fault ++ [⟨.consumerProtocol, encode (.rdBit k i)⟩], resp := r })
    ∧ ∃ r, exec (.rdWord k w) s = .next { s with
      fault := s.fault ++ [⟨.consumerProtocol, encode (.rdWord k w)⟩], resp := r }

/-- R206, R208: a command records a fault exactly under the condition of R201 or R203, at most one, with the right code,
and the command word; otherwise the list stays. EDGE, RD_ACQUIRE and STATUS never do. -/
def Obligations.FaultsExactlyUnderTheirConditions : Prop :=
  ∀ (i : Instr) (s t : State), exec i s = .next t →
    (consumerFaults s i = true → t.fault = s.fault ++ [⟨.consumerProtocol, encode i⟩])
    ∧ (txFaults s i = true → t.fault = s.fault ++ [⟨.txBusy, encode i⟩])
    ∧ (consumerFaults s i = false → txFaults s i = false → t.fault = s.fault)

/-- R107, R234, R239: agents that keep their duties never cause a fault: a step whose next event keeps the consumer's
protocol and the TxCaller's hold, and is not the reset input, leaves the fault list as it is. -/
def Obligations.DutifulAgentsNeverFault : Prop :=
  ∀ s t : State, s.consumerKeepsProtocol → s.txCallerKeepsHold → s.resetPending = false → step s = .next t →
    t.fault = s.fault

/-- R32, R175, R178, R58: which command may change which part of the state. Only EDGE changes the decoder, `wr` or a stored
bit; only RD_RELEASE changes `rd`; only those two change a size; only TX_START changes a TX register, and it leaves the pin;
no command emits a segment, changes `TM`, `refused` or the schedule. -/
def Obligations.EachSideWritesOnlyItsOwnState : Prop :=
  ∀ (i : Instr) (s t : State), exec i s = .next t →
    ((∀ x, i ≠ .edge x) → t.dec = s.dec ∧ t.ring.wr = s.ring.wr
      ∧ ∀ k j, t.ring.slots.read k j = s.ring.slots.read k j)
    ∧ ((∀ x, i ≠ .rdRelease x) → t.ring.rd = s.ring.rd)
    ∧ ((∀ x, i ≠ .edge x) → (∀ x, i ≠ .rdRelease x) → t.ring = s.ring)
    ∧ ((∀ c r, i ≠ .txStart c r) → t.enc = s.enc)
    ∧ t.enc.pin = s.enc.pin ∧ t.trace = s.trace ∧ t.tm = s.tm ∧ t.refused = s.refused
    ∧ t.schedule = s.schedule ∧ t.respTo = s.respTo

/-- R190, R25, R80: the response of STATUS, field by field; nothing but the response changes, and a second STATUS returns
the same word. -/
def Obligations.StatusReportsTheControlState : Prop :=
  ∀ s : State, ∃ r : RespWord, exec .status s = .next { s with resp := r }
    ∧ exec .status { s with resp := r } = .next { s with resp := r }
    ∧ r.extractLsb' 0 3 = (match s.dec.state with
        | .waitingForSync => 0#3 | .waitingForHigh => 1#3 | .waitingForLowSync => 2#3
        | .waitingForLowZero => 3#3 | .waitingForLowOne => 4#3)
    ∧ (r.extractLsb' 3 3).toNat = s.ring.wr.val ∧ (r.extractLsb' 6 3).toNat = s.ring.rd.val
    ∧ r.getLsbD 9 = s.enc.busy ∧ r.getLsbD 10 = s.enc.pin
    ∧ r.extractLsb' 11 8 = (s.ring.slots.frame s.ring.wr).size ∧ r.extractLsb' 19 45 = 0#45

/-! ## The ring as a queue -/

/-- R101, R102, R143, R144, R61: EDGE on the queue of committed frames. It appends the frame in progress at the back exactly
when the ring is not full, the duration is a sync-high and the frame in progress is not empty; it never touches a committed
frame. The frame in progress starts over at a sync-high and otherwise grows by the appended bit up to 128. -/
def Obligations.EdgeRefinesAQueue : Prop :=
  ∀ (s u : State) (t : U32), s.Inv → exec (.edge t) s = .next u →
    (s.ring.full = true → u.ring.queue = s.ring.queue ∧ u.ring.inProgress = s.ring.inProgress)
    ∧ (s.ring.full = false → inWin (t - s.dec.lastEdge) s.tm.sync.high = true →
        u.ring.queue = (if s.ring.inProgress = [] then s.ring.queue else s.ring.queue ++ [s.ring.inProgress])
        ∧ u.ring.inProgress = [])
    ∧ (s.ring.full = false → inWin (t - s.dec.lastEdge) s.tm.sync.high = false →
        u.ring.queue = s.ring.queue
        ∧ u.ring.inProgress = (s.ring.inProgress
            ++ (classify s.tm s.dec.state (t - s.dec.lastEdge)).2.toList).take 128)

/-- R102, R104, R105, R107: the consumer on the queue. RD_ACQUIRE says whether there is a head frame and how long it is,
RD_WORD reads its bits, RD_RELEASE of the head takes it off; no consumer command touches the frame in progress. -/
def Obligations.ConsumerWorksOnTheQueueHead : Prop :=
  ∀ (s : State) (f : List Bool) (fs : List (List Bool)), s.Inv → s.ring.queue = f :: fs →
    (∃ u, exec .rdAcquire s = .next u ∧ u.resp.getLsbD 0 = true ∧ (u.resp.extractLsb' 1 3).toNat = s.ring.rd.val
      ∧ (u.resp.extractLsb' 4 8).toNat = f.length)
    ∧ (∀ w : WordSel, ∃ u, exec (.rdWord s.ring.rd w) s = .next u ∧ u.ring = s.ring
        ∧ ∀ j, j < 64 → u.resp.getLsbD j = f.getD (64 * w.val + j) false)
    ∧ ∃ u, exec (.rdRelease s.ring.rd) s = .next u ∧ u.fault = s.fault ∧ u.ring.queue = fs
        ∧ u.ring.inProgress = s.ring.inProgress

/-- R61, R33: the queue never holds more than 7 frames, and each has 1 to 128 bits. -/
def Obligations.QueueIsBounded : Prop :=
  ∀ s : State, s.Inv → s.ring.queue.length ≤ 7 ∧ (∀ f ∈ s.ring.queue, 1 ≤ f.length ∧ f.length ≤ 128)
    ∧ (s.ring.queue.length = 7 ↔ s.ring.full = true)

/-- R61, R107: no step but a release of the head slot, or the reset input, changes a committed slot or takes it out of the
committed ones. -/
def Obligations.CommittedFramesStayUntilReleased : Prop :=
  ∀ (s t : State) (k : SlotIdx), s.Inv → s.ring.committed k = true → s.resetPending = false →
    (∀ p w rest, s.schedule = .command p w :: rest → decode w ≠ .command (.rdRelease s.ring.rd)) →
    step s = .next t → t.ring.committed k = true ∧ t.ring.slots.frame k = s.ring.slots.frame k

/-- R29, D14, D27: stored bits at or beyond the size of their slot are never observable: two states that differ at most in
such bits take steps of the same kind, to states that again differ at most so; the response, the segments, the records and
the indices agree. -/
def Obligations.StaleBitsAreNeverObservable : Prop :=
  ∀ s u : State, s.SameVisible u → SameVisibleOutcome (step s) (step u)

/-! ## TX -/

/-- R170: TX_START. From idle it latches the code and the count and starts at the sync symbol's high phase, the pin keeping
its level; a count of 0 changes nothing; while busy it is TX_BUSY, and nothing else but the response changes. -/
def Obligations.TxStartOutcomes : Prop :=
  ∀ (s : State) (code : U64) (rep : U8),
    (s.enc.busy = false → rep ≠ 0 →
      exec (.txStart code rep) s = .next { s with enc := ⟨true, s.enc.pin, code, rep, 0#7, .high⟩, resp := 0 })
    ∧ (s.enc.busy = false → rep = 0 → exec (.txStart code rep) s = .next { s with resp := 0 })
    ∧ (s.enc.busy = true →
        ∃ r, exec (.txStart code rep) s = .next { s with
          fault := s.fault ++ [⟨.txBusy, encode (.txStart code rep)⟩], resp := r })

/-- R172, R83, R171: what a segment step does, and when the TxSequencer takes one. TXSTEP is enabled exactly when
`tx_busy = 1`. The model's own in it: TXRUN takes a segment step and stays the next event while `tx_busy = 1`, and is
consumed with no other change once `tx_busy = 0` (log 16); with no event pending the busy sequencer steps (log 2); the
schedule is the model's (log 1); and register values that no run reaches follow the pseudocode with the registers' widths
(log 13). -/
def Obligations.TxSegmentStep : Prop :=
  ∀ s : State,
    let sym := if s.enc.pos = 0#7 then s.tm.sync
      else if s.enc.code.getLsbD (s.enc.pos.toNat - 1) = true then s.tm.one else s.tm.zero
    let takesSegment := fun (left : List Event) =>
      (s.enc.phase = .high →
        step s = .next { s with
          schedule := left, trace := s.trace ++ [⟨true, sym.high.nom⟩]
          enc := { s.enc with pin := true, phase := .low } })
      ∧ (s.enc.phase = .low → s.enc.pos.toNat < 64 →
        step s = .next { s with
          schedule := left, trace := s.trace ++ [⟨false, sym.low.nom⟩]
          enc := { s.enc with pin := false, phase := .high, pos := s.enc.pos + 1 } })
      ∧ (s.enc.phase = .low → 64 ≤ s.enc.pos.toNat →
        step s = .next { s with
          schedule := left, trace := s.trace ++ [⟨false, sym.low.nom⟩]
          enc := { s.enc with
            pin := false, phase := .high, pos := 0, repLeft := s.enc.repLeft - 1
            busy := decide (s.enc.repLeft - 1 ≠ 0) } })
    (∀ rest, s.schedule = .txStep :: rest →
      (s.enc.busy = false → ∀ t, step s ≠ .next t) ∧ (s.enc.busy = true → takesSegment rest))
    ∧ (∀ rest, s.schedule = .txRun :: rest →
      (s.enc.busy = false → step s = .next { s with schedule := rest })
      ∧ (s.enc.busy = true → takesSegment (.txRun :: rest)))
    ∧ (s.schedule = [] → s.enc.busy = true → takesSegment [])

/-- R176, R178: every segment starts with a pin transition, and a call ends with the pin low. From a state with the
invariant, whatever step but the reset input adds to the trace (TXSTEP, TXRUN, or the sequencer with no event pending, log 2)
adds one segment, at the inverted level of the pin; every other such step leaves the pin. -/
def Obligations.EverySegmentIsAPinTransition : Prop :=
  ∀ s t : State, s.Inv → s.resetPending = false → step s = .next t →
    (t.trace ≠ s.trace →
      t.enc.pin = !s.enc.pin ∧ (∃ d, t.trace = s.trace ++ [⟨t.enc.pin, d⟩]) ∧ (t.enc.busy = false → t.enc.pin = false))
    ∧ (t.trace = s.trace → t.enc.pin = s.enc.pin)

/-- R171, R173: a TX_START(code, rep) from idle, with rep ≥ 1, is busy for exactly 130 × rep segment steps, which append
exactly `TxSegments(code, rep)` to the trace, and leaves the pin low and the sequencer idle; the decoder and the ring are
not touched (R175). That the sequencer steps while no event is pending is the model's (log 2). -/
def Obligations.TransmissionEmitsExactlyItsSegments : Prop :=
  ∀ (s : State) (code : U64) (rep : U8), s.enc.busy = false → rep ≠ 0 →
    s.schedule = [.command .tx (encode (.txStart code rep))] →
    (∀ n, n < 130 * rep.toNat → ∃ u, Host.Core.run Sys2Proof.core (n + 1) s = .next u ∧ u.enc.busy = true)
    ∧ ∃ t, Host.Core.run Sys2Proof.core (130 * rep.toNat + 1) s = .next t
      ∧ t.trace = s.trace ++ txSegments s.tm code rep.toNat
      ∧ t.enc = ⟨false, false, code, 0#8, 0#7, .high⟩
      ∧ t.dec = s.dec ∧ t.ring = s.ring ∧ t.fault = s.fault

/-- R54, R173: the segments of one repeat: sync, then bit j of the code as symbol j + 1, from bit 0 to bit 63, each as its
high and its low phase. -/
def Obligations.RepeatSendsBitZeroFirst : Prop :=
  ∀ (tm : TimingModel) (code : U64),
    (txSegments tm code 1).length = 130
    ∧ (txSegments tm code 1)[0]? = some ⟨true, tm.sync.high.nom⟩
    ∧ (txSegments tm code 1)[1]? = some ⟨false, tm.sync.low.nom⟩
    ∧ ∀ j, j < 64 →
        (txSegments tm code 1)[2 * j + 2]? =
          some ⟨true, if code.getLsbD j = true then tm.one.high.nom else tm.zero.high.nom⟩
        ∧ (txSegments tm code 1)[2 * j + 3]? =
          some ⟨false, if code.getLsbD j = true then tm.one.low.nom else tm.zero.low.nom⟩

/-- R174: the durations of one repeat are exactly those of the pseudo-instruction `CODE64 code`. -/
def Obligations.RepeatDurationsAreCode64 : Prop :=
  ∀ (tm : TimingModel) (code : U64), (txSegments tm code 1).map Segment.dur = code64Durations tm code

/-- R137, R241: at the defaults a call with `rep` repeats lasts rep × 57000 µs whatever the code. -/
def Obligations.CallLasts57000PerRepeat : Prop :=
  ∀ (code : U64) (rep : Nat),
    ((txSegments Config.defaultTM code rep).map fun g => g.dur.toNat).sum = rep * 57000

/-- R59, R208, R175: a segment step and a command of another agent (any but TX_START and STATUS) commute. -/
def Obligations.SegmentStepCommutesWithReception : Prop :=
  ∀ (i : Instr) (s t : State), i ≠ .status → (∀ c r, i ≠ .txStart c r) → exec i s = .next t →
    exec i s.txSegmentStep = .next t.txSegmentStep

/-! ## The protocol, end to end -/

/-- R151: decoding a clean burst. From any state with the invariant and room for the burst, the 130 durations of `CODE64 c`,
with ANY commands of the other agents between them, leave the 64 bits of `c` in the write slot, uncommitted, and the decoder
in WaitingForHigh; one more duration in sync.high commits that slot as a valid frame of value `c`. -/
def Obligations.CleanBurstDecodesItsCode : Prop :=
  ∀ (s : State) (c : U64) (is : List Instr), s.Inv → s.tm = Config.defaultTM → s.ring.roomForBurst →
    is.filter Instr.isEdge = edgesFrom s.dec.lastEdge (code64Durations Config.defaultTM c) →
    ∃ t, execAll is s = .next t
      ∧ t.ring.wr = s.ring.burstSlot ∧ t.ring.committed t.ring.wr = false
      ∧ (t.ring.slots.frame t.ring.wr).size = 64#8
      ∧ (∀ j, j < 64 → t.ring.slots.read t.ring.wr j = c.getLsbD j)
      ∧ t.dec.state = .waitingForHigh
      ∧ ∀ d, inWin d Config.defaultTM.sync.high = true →
          ∃ u, exec (.edge (t.dec.lastEdge + d)) t = .next u ∧ u.ring.wr = nextSlot t.ring.wr
            ∧ u.ring.committed t.ring.wr = true
            ∧ (u.ring.slots.frame t.ring.wr).isValid = true ∧ (u.ring.slots.frame t.ring.wr).value = c

/-- R174, R177, C3: the round trip on the duration sequence. The segments that a transmission of `c` with one repeat appends
to the trace, fed back as EDGE durations with one more sync-high, give an empty ring the frame of value `c`: RD_ACQUIRE
reports size 64 and RD_WORD 0 returns `c`. That the sequencer steps while no event is pending is the model's (log 2). -/
def Obligations.RoundTripReturnsTheCode : Prop :=
  ∀ (s t : State) (c : U64), s.Inv → s.tm = Config.defaultTM → s.enc.busy = false →
    s.ring.rd = s.ring.wr → (s.ring.slots.frame s.ring.wr).size = 0#8 →
    s.schedule = [.command .tx (encode (.txStart c 1))] → Host.Core.run Sys2Proof.core 131 s = .next t →
    ∃ u a v,
      execAll (edgesFrom t.dec.lastEdge (((t.trace.drop s.trace.length).map Segment.dur) ++ [5200])) t = .next u
      ∧ exec .rdAcquire u = .next a ∧ a.resp.getLsbD 0 = true ∧ a.resp.extractLsb' 4 8 = 64#8
      ∧ exec (.rdWord u.ring.rd 0) u = .next v ∧ v.resp = c ∧ u.fault = s.fault

/-- R177: loopback at the pin. The edges of a call with `rep` repeats, the first of them at any time, deliver `rep - 1`
committed frames equal to the code (after at most one frame of bits left over from before), and leave the first 63 bits of
the last repeat in the write slot, where the ring has room for all of them. -/
def Obligations.LoopbackDeliversAllButTheLastRepeat : Prop :=
  ∀ (s : State) (c : U64) (rep : Nat) (t0 : U32), s.Inv → s.tm = Config.defaultTM → 1 ≤ rep → s.ring.buffered + rep ≤ 6 →
    ∃ u leftover, execAll ((pinEdges t0 (txSegments Config.defaultTM c rep)).map .edge) s = .next u
      ∧ leftover.length ≤ 1
      ∧ u.ring.queue = s.ring.queue ++ leftover ++ List.replicate (rep - 1) (codeBits c)
      ∧ u.ring.inProgress = (codeBits c).take 63

/-! ## Assembly -/

/-- R83: `CODE64 c` assembles to 130 EDGE commands on the edge port, the k-th at the cursor plus the durations up to it. -/
def Obligations.Code64AssemblesTo130Edges : Prop :=
  ∀ (tm : TimingModel) (T : U32) (c : Nat), c < 2 ^ 64 →
    ∃ es, assemble tm T [.code64 c] = some es ∧ es.length = 130
      ∧ ∀ k (h : k < es.length), es[k] = .command .edge (encode (.edge
          (T + (((code64Durations tm (BitVec.ofNat 64 c)).take (k + 1)).sum))))

/-- R82: an operand outside its range is an assembly error, not a command: a program with such a command on any line does
not assemble. A command in range is its own word, on its agent's port (for STATUS the model takes the consumer's, log 17). -/
def Obligations.OperandsOutOfRangeAreAssemblyErrors : Prop :=
  ∀ (tm : TimingModel) (T : U32) (a : AsmCommand) (before after : List AsmLine),
    (a.wellFormed = false → assemble tm T (before ++ .command a :: after) = none)
    ∧ (a.wellFormed = true → ∃ i, AsmCommand.ofInstr i = a
        ∧ assemble tm T [.command a] = some [.command (.ofInstr i) (encode i)])
end

