-- ==== Sys2Proof/Laws/Decode.lean ====
section
/-! SUPPORT. The fields of a packed command word (R70), what a word that decodes to a command is (R76), and that every
command is well-formed (R82). -/

namespace Sys2Proof

/-- The operand types already keep every operand in the range of R82. -/
theorem Instr.wellFormed_all (i : Instr) : i.wellFormed = true := by
  cases i <;> simp [Instr.wellFormed, AsmCommand.ofInstr, AsmCommand.wellFormed]
  all_goals omega

/-- A written command in range is the writing of the command it stands for. -/
theorem AsmCommand.ofInstr_operands (a : AsmCommand) (h : a.wellFormed = true) : AsmCommand.ofInstr a.operands = a := by
  cases a <;> simp [AsmCommand.wellFormed] at h <;>
    simp [AsmCommand.operands, AsmCommand.ofInstr, Nat.mod_eq_of_lt, h]

section Pack

variable (op : BitVec 4) (slot : BitVec 3) (idx : BitVec 7) (rep : U8) (data : U64)

/-- Bit by bit, where each field of R70 lies in the packed word. -/
theorem packCommand_getLsbD (n : Nat) : (packCommand op slot idx rep data).getLsbD n =
    if n < 4 then op.getLsbD n else if n < 7 then slot.getLsbD (n - 4) else if n < 8 then false
    else if n < 15 then idx.getLsbD (n - 8) else if n < 16 then false
    else if n < 24 then rep.getLsbD (n - 16) else if n < 32 then false else data.getLsbD (n - 32) := by
  unfold packCommand
  simp only [BitVec.getLsbD_append, BitVec.getLsbD_zero]
  repeat' split
  all_goals first | omega | rfl

@[simp] theorem opField_pack : opField (packCommand op slot idx rep data) = op := by
  apply BitVec.eq_of_getLsbD_eq
  intro i hi
  simp [opField, hi, packCommand_getLsbD]

@[simp] theorem slotField_pack : slotField (packCommand op slot idx rep data) = slot.toFin := by
  have : (packCommand op slot idx rep data).extractLsb' 4 3 = slot := by
    apply BitVec.eq_of_getLsbD_eq
    intro i hi
    have : ¬ 4 + i < 4 := by omega
    have : 4 + i < 7 := by omega
    simp [packCommand_getLsbD, *]
  ext
  simp [slotField, this, Nat.mod_eq_of_lt slot.isLt]

@[simp] theorem idxField_pack : idxField (packCommand op slot idx rep data) = idx.toFin := by
  have : (packCommand op slot idx rep data).extractLsb' 8 7 = idx := by
    apply BitVec.eq_of_getLsbD_eq
    intro i hi
    have h1 : ¬ 8 + i < 4 := by omega
    have h2 : ¬ 8 + i < 7 := by omega
    have h3 : ¬ 8 + i < 8 := by omega
    have h4 : 8 + i < 15 := by omega
    simp [hi, packCommand_getLsbD, h1, h2, h4]
  ext
  simp [idxField, this, Nat.mod_eq_of_lt idx.isLt]

@[simp] theorem repField_pack : repField (packCommand op slot idx rep data) = rep := by
  apply BitVec.eq_of_getLsbD_eq
  intro i hi
  have h1 : ¬ 16 + i < 4 := by omega
  have h2 : ¬ 16 + i < 7 := by omega
  have h3 : ¬ 16 + i < 8 := by omega
  have h4 : ¬ 16 + i < 15 := by omega
  have h5 : 16 + i < 24 := by omega
  simp [repField, hi, packCommand_getLsbD, h1, h2, h3, h4, h5]

@[simp] theorem codeField_pack : codeField (packCommand op slot idx rep data) = data := by
  apply BitVec.eq_of_getLsbD_eq
  intro i hi
  have h1 : ¬ 32 + i < 4 := by omega
  have h2 : ¬ 32 + i < 7 := by omega
  have h3 : ¬ 32 + i < 8 := by omega
  have h4 : ¬ 32 + i < 15 := by omega
  have h5 : ¬ 32 + i < 16 := by omega
  have h6 : ¬ 32 + i < 24 := by omega
  simp [codeField, hi, packCommand_getLsbD, h1, h2, h3, h4, h5, h6]

@[simp] theorem timeField_pack : timeField (packCommand op slot idx rep data) = data.setWidth 32 := by
  apply BitVec.eq_of_getLsbD_eq
  intro i hi
  have h1 : ¬ 32 + i < 4 := by omega
  have h2 : ¬ 32 + i < 7 := by omega
  have h3 : ¬ 32 + i < 8 := by omega
  have h4 : ¬ 32 + i < 15 := by omega
  have h5 : ¬ 32 + i < 16 := by omega
  have h6 : ¬ 32 + i < 24 := by omega
  simp [timeField, hi, packCommand_getLsbD, h1, h2, h3, h4, h5, h6]

end Pack

/-! ### Decoding -/

theorem Row.accepts_iff (r : Row) (w : CmdWord) : r.accepts w = true ↔ w &&& r.mask = r.matchBits := by
  simp [Row.accepts]

/-- A word that a row accepts has that row's operation code. -/
theorem opField_of_accepts {r : Row} {w : CmdWord} (h : r.accepts w = true) (hm : r.mask &&& 0xF#96 = 0xF#96) :
    opField w = opField r.matchBits := by
  have h : w &&& r.mask = r.matchBits := by simpa [Row.accepts] using h
  rw [← h]
  apply BitVec.eq_of_getLsbD_eq
  intro i hi
  have : r.mask.getLsbD i = true := by
    have := congrArg (fun x => x.getLsbD i) hm
    have h15 : (0xF#96).getLsbD i = true := by interval_cases i <;> rfl
    simp only [BitVec.getLsbD_and, h15, Bool.and_true] at this
    exact this
  simp [opField, hi, this]

theorem commandTable_masks_op : ∀ r ∈ commandTable, r.mask &&& 0xF#96 = 0xF#96 := by decide

theorem Row.not_accepts {r : Row} {w : CmdWord} (hr : r ∈ commandTable) (h : opField w ≠ opField r.matchBits) :
    r.accepts w = false := by
  by_contra hc
  exact h (opField_of_accepts (by simpa using hc) (commandTable_masks_op r hr))

/-- What a word that decodes to a command is: it matches the command's row, and the operands are its fields. -/
theorem decode_cases {w : CmdWord} {i : Instr} (h : decode w = .command i) :
    (rowEdge.accepts w = true ∧ i = .edge (timeField w))
    ∨ (rowRdAcquire.accepts w = true ∧ i = .rdAcquire)
    ∨ (rowRdBit.accepts w = true ∧ i = .rdBit (slotField w) (idxField w))
    ∨ (rowRdWord.accepts w = true ∧ i = .rdWord (slotField w) (wordSelField w))
    ∨ (rowRdRelease.accepts w = true ∧ i = .rdRelease (slotField w))
    ∨ (rowTxStart.accepts w = true ∧ i = .txStart (codeField w) (repField w))
    ∨ (rowStatus.accepts w = true ∧ i = .status) := by
  unfold decode at h
  split at h
  · cases h; simp [*]
  split at h
  · cases h; simp [*]
  split at h
  · cases h; simp [*]
  split at h
  · cases h; simp [*]
  split at h
  · cases h; simp [*]
  split at h
  · cases h; simp [*]
  split at h
  · cases h; simp [*]
  · cases h

/-- A word is a command exactly when some row accepts it. -/
theorem decode_illegal_iff (w : CmdWord) :
    (∃ e, decode w = .illegal e) ↔ ∀ r ∈ commandTable, r.accepts w = false := by
  simp only [commandTable, List.forall_mem_cons, List.not_mem_nil, false_imp_iff, implies_true, and_true]
  unfold decode
  repeat' split
  all_goals simp_all

end Sys2Proof
end

