-- ==== Sys2Proof/Laws/Memory.lean ====
section
/-! SUPPORT. The frame storage: what each of its operations does, bit by bit, and that each keeps the canonical form. -/

namespace Sys2Proof.Machine

/-! ### One frame -/

@[simp] theorem Frame.write_size (f : Frame) (i : Nat) (b : Bool) : (f.write i b).size = f.size := rfl

@[simp] theorem Frame.clear_size (f : Frame) : f.clear.size = 0#8 := rfl

@[simp] theorem Frame.clear_bits (f : Frame) : f.clear.bits = f.bits := rfl

@[simp] theorem Frame.clear_read (f : Frame) (i : Nat) : f.clear.read i = f.read i := rfl

/-- Read after write within a frame: the written position reads the bit written, every other one reads as before. -/
theorem Frame.read_write (f : Frame) (i j : Nat) (b : Bool) (hi : i < 128) :
    (f.write i b).read j = if j = i then b else f.read j := by
  unfold Frame.write Frame.read
  by_cases hj : j < 128
  · cases b <;> by_cases h : j = i <;> simp [h, hi] <;> omega
  · have : j ≠ i := by omega
    simp only [this, if_false]
    rw [BitVec.getLsbD_of_ge _ _ (by omega), BitVec.getLsbD_of_ge _ _ (by omega)]

theorem Frame.append_of_lt (f : Frame) (b : Bool) (h : f.size.toNat < 128) :
    f.append b = { f.write f.size.toNat b with size := f.size + 1#8 } := by
  have : f.size < 128#8 := h
  simp [Frame.append, this]

theorem Frame.append_of_ge (f : Frame) (b : Bool) (h : 128 ≤ f.size.toNat) : f.append b = f := by
  have : ¬ f.size < 128#8 := by simpa [BitVec.lt_def] using h
  simp [Frame.append, this]

theorem Frame.append_size (f : Frame) (b : Bool) (h : f.size.toNat < 128) :
    (f.append b).size.toNat = f.size.toNat + 1 := by
  rw [f.append_of_lt b h]
  simp [BitVec.toNat_add]
  omega

theorem Frame.append_read (f : Frame) (b : Bool) (j : Nat) (h : f.size.toNat < 128) :
    (f.append b).read j = if j = f.size.toNat then b else f.read j := by
  rw [f.append_of_lt b h]
  exact f.read_write _ j b h

theorem Frame.append_size_le (f : Frame) (b : Bool) (h : f.size ≤ 128#8) : (f.append b).size ≤ 128#8 := by
  by_cases hlt : f.size.toNat < 128
  · have := f.append_size b hlt
    simp only [BitVec.le_def]
    simp
    omega
  · rwa [f.append_of_ge b (by omega)]

@[simp] theorem Frame.content_length (f : Frame) : f.content.length = f.size.toNat := by simp [Frame.content]

theorem Frame.content_getElem? (f : Frame) (i : Nat) :
    f.content[i]? = if i < f.size.toNat then some (f.read i) else none := by
  by_cases h : i < f.size.toNat <;> simp [Frame.content, h]

theorem Frame.content_eq_nil (f : Frame) : f.content = [] ↔ f.size = 0#8 := by
  rw [← List.length_eq_zero_iff, f.content_length, ← BitVec.toNat_inj]
  simp

/-- Two frames have the same content exactly when they agree on all that a consumer can see. -/
theorem Frame.content_congr {f g : Frame} (hs : f.size = g.size) (hr : ∀ i, i < f.size.toNat → f.read i = g.read i) :
    f.content = g.content := by
  apply List.ext_getElem?
  intro i
  rw [f.content_getElem?, g.content_getElem?, ← hs]
  by_cases h : i < f.size.toNat
  · simp [h, hr i h]
  · simp [h]

/-- Appending a bit to a frame appends it to its content, up to 128 bits. -/
theorem Frame.content_append (f : Frame) (b : Bool) (h : f.size ≤ 128#8) :
    (f.append b).content = (f.content ++ [b]).take 128 := by
  have h' : f.size.toNat ≤ 128 := h
  by_cases hlt : f.size.toNat < 128
  · rw [List.take_of_length_le (by simp; omega)]
    apply List.ext_getElem?
    intro i
    rw [(f.append b).content_getElem?, f.append_size b hlt, f.append_read b i hlt]
    by_cases h1 : i < f.size.toNat
    · rw [List.getElem?_append_left (by simpa using h1), f.content_getElem?]
      simp [h1, show i ≠ f.size.toNat by omega, show i < f.size.toNat + 1 by omega]
    · rw [List.getElem?_append_right (by simpa using h1), f.content_length]
      by_cases h2 : i = f.size.toNat
      · simp [h2]
      · simp [show ¬ i < f.size.toNat + 1 by omega, show i - f.size.toNat ≠ 0 by omega]
  · have he : f.size.toNat = 128 := by omega
    rw [f.append_of_ge b (by omega), List.take_append_of_le_length (by simp [he])]
    exact (List.take_of_length_le (by simp [he])).symm

@[simp] theorem Frame.clear_content (f : Frame) : f.clear.content = [] := by simp [Frame.content, Frame.clear]

theorem Frame.visibleWord_getLsbD (f : Frame) (w : WordSel) (j : Nat) (hj : j < 64) :
    (f.visibleWord w).getLsbD j = (decide (64 * w.val + j < f.size.toNat) && f.read (64 * w.val + j)) := by
  simp [Frame.visibleWord, Frame.read, hj, BitVec.getLsbD_setWidth]

/-! ### The eight slots -/

@[simp] theorem Memory.frame_setFrame_self (m : Memory) (k : SlotIdx) (f : Frame) : (m.setFrame k f).frame k = f := by
  simp [Memory.frame, Memory.setFrame]

theorem Memory.frame_setFrame_of_ne (m : Memory) {k j : SlotIdx} (f : Frame) (h : j ≠ k) :
    (m.setFrame k f).frame j = m.frame j := by
  have h' : k.val ≠ j.val := fun e => h (Fin.ext e.symm)
  simp [Memory.frame, Memory.setFrame, h']

theorem Memory.frame_setFrame (m : Memory) (k j : SlotIdx) (f : Frame) :
    (m.setFrame k f).frame j = if j = k then f else m.frame j := by
  by_cases h : j = k
  · subst h; simp
  · simp [h, m.frame_setFrame_of_ne f h]

/-- Two memories with the same frames are the same. -/
theorem Memory.ext_frame {m n : Memory} (h : ∀ k, m.frame k = n.frame k) : m = n := by
  apply Vector.ext
  intro i hi
  exact h ⟨i, hi⟩

@[simp] theorem Memory.setFrame_frame (m : Memory) (k : SlotIdx) : m.setFrame k (m.frame k) = m := by
  apply Memory.ext_frame
  intro j
  rw [m.frame_setFrame]
  by_cases h : j = k <;> simp [h]

/-- Read after write over the whole storage (R10): the written bit reads as written, every other one as before. -/
theorem Memory.read_write (m : Memory) (k j : SlotIdx) (i n : Nat) (b : Bool) (hi : i < 128) :
    (m.write k i b).read j n = if j = k ∧ n = i then b else m.read j n := by
  unfold Memory.write Memory.read
  rw [m.frame_setFrame]
  by_cases h : j = k
  · subst h; simp [Frame.read_write _ _ _ _ hi]
  · simp [h]

theorem Memory.frame_append (m : Memory) (k j : SlotIdx) (b : Bool) :
    (m.append k b).frame j = if j = k then (m.frame k).append b else m.frame j := m.frame_setFrame k j _

theorem Memory.frame_clear (m : Memory) (k j : SlotIdx) :
    (m.clear k).frame j = if j = k then (m.frame k).clear else m.frame j := m.frame_setFrame k j _

/-! ### The canonical form -/

theorem Memory.wf_iff (m : Memory) : m.wf = true ↔ ∀ k, (m.frame k).size ≤ 128#8 := by
  simp [Memory.wf]

theorem Memory.wf_setFrame (m : Memory) (k : SlotIdx) (f : Frame) (h : m.wf = true) (hf : f.size ≤ 128#8) :
    (m.setFrame k f).wf = true := by
  rw [Memory.wf_iff] at h ⊢
  intro j
  rw [m.frame_setFrame]
  by_cases e : j = k
  · simpa [e] using hf
  · simpa [e] using h j

theorem Memory.wf_write (m : Memory) (k : SlotIdx) (i : Nat) (b : Bool) (h : m.wf = true) :
    (m.write k i b).wf = true := m.wf_setFrame k _ h (by simpa using (m.wf_iff.mp h) k)

theorem Memory.wf_append (m : Memory) (k : SlotIdx) (b : Bool) (h : m.wf = true) : (m.append k b).wf = true :=
  m.wf_setFrame k _ h (Frame.append_size_le _ b ((m.wf_iff.mp h) k))

theorem Memory.wf_clear (m : Memory) (k : SlotIdx) (h : m.wf = true) : (m.clear k).wf = true :=
  m.wf_setFrame k _ h (by simp [BitVec.le_def])

@[simp] theorem State.atReset_frame (tm : TimingModel) (le : U32) (bits : Vector SlotBits 8) (k : SlotIdx) :
    (State.atReset tm le bits).ring.slots.frame k = ⟨0, bits[k.val]⟩ := by
  simp [State.atReset, Memory.frame]

theorem Memory.wf_atReset (tm : TimingModel) (le : U32) (bits : Vector SlotBits 8) :
    (State.atReset tm le bits).ring.slots.wf = true := by
  rw [Memory.wf_iff]
  intro k
  simp [BitVec.le_def]

theorem Memory.wf_reset : State.reset.ring.slots.wf = true := Memory.wf_atReset _ _ _

end Sys2Proof.Machine
end

