-- ==== Sys2Proof/Laws/Ring.lean ====
section
/-! SUPPORT. The ring: its conditions, what each ring operation does, and that each keeps the ring invariants. -/

namespace Sys2Proof.Machine

/-! ### Indices -/

theorem Ring.empty_iff (r : Ring) : r.empty = true ↔ r.rd = r.wr := by simp [Ring.empty]

theorem Ring.full_iff (r : Ring) : r.full = true ↔ r.rd = r.wr + 1 := by simp [Ring.full, nextSlot]

theorem Ring.full_eq_false_iff (r : Ring) : r.full = false ↔ r.rd ≠ r.wr + 1 := by simp [Ring.full, nextSlot]

theorem Ring.isHead_iff (r : Ring) (k : SlotIdx) : r.isHead k = true ↔ r.rd ≠ r.wr ∧ k = r.rd := by
  simp [Ring.isHead]

theorem Ring.isHead_eq_false_iff (r : Ring) (k : SlotIdx) : r.isHead k = false ↔ r.rd = r.wr ∨ k ≠ r.rd := by
  rw [← Bool.not_eq_true, r.isHead_iff]
  tauto

theorem Ring.committed_iff (r : Ring) (k : SlotIdx) : r.committed k = true ↔ (k - r.rd).val < (r.wr - r.rd).val := by
  simp [Ring.committed, Ring.buffered]

theorem Ring.committed_eq_false_iff (r : Ring) (k : SlotIdx) :
    r.committed k = false ↔ (r.wr - r.rd).val ≤ (k - r.rd).val := by
  simp [Ring.committed, Ring.buffered]

theorem Ring.buffered_le_seven (r : Ring) : r.buffered ≤ 7 := Nat.le_of_lt_succ (r.wr - r.rd).isLt

theorem Ring.wr_not_committed (r : Ring) : r.committed r.wr = false := by simp [r.committed_eq_false_iff]

/-- Advancing `wr` of a ring that is not full adds exactly the old write slot to the committed ones. -/
theorem slot_committed_advance : ∀ rd wr k : SlotIdx, rd ≠ wr + 1 →
    ((k - rd).val < (wr + 1 - rd).val ↔ (k - rd).val < (wr - rd).val ∨ k = wr) := by decide

/-- Advancing `rd` of a non-empty ring takes exactly the head slot out of the committed ones. -/
theorem slot_committed_release : ∀ rd wr k : SlotIdx, rd ≠ wr →
    ((k - (rd + 1)).val < (wr - (rd + 1)).val ↔ (k - rd).val < (wr - rd).val ∧ k ≠ rd) := by decide

theorem slot_buffered_advance : ∀ rd wr : SlotIdx, rd ≠ wr + 1 → (wr + 1 - rd).val = (wr - rd).val + 1 := by decide

theorem slot_buffered_release : ∀ rd wr : SlotIdx, rd ≠ wr → (wr - (rd + 1)).val + 1 = (wr - rd).val := by decide

theorem slot_next_ne : ∀ k : SlotIdx, k + 1 ≠ k := by decide

theorem slot_full_iff : ∀ rd wr : SlotIdx, rd = wr + 1 ↔ (wr - rd).val = 7 := by decide

theorem slot_head_committed : ∀ rd wr : SlotIdx, rd ≠ wr → (rd - rd).val < (wr - rd).val := by decide

theorem slot_next_not_committed : ∀ rd wr : SlotIdx, rd ≠ wr + 1 → ¬ (wr + 1 - rd).val < (wr - rd).val := by decide

theorem Ring.full_iff_buffered (r : Ring) : r.full = true ↔ r.buffered = 7 := by
  rw [r.full_iff]
  exact slot_full_iff r.rd r.wr

/-! ### The operations -/

/-- AcquireWriteSlot (R100) in terms of `full`. -/
theorem Ring.acquireWriteSlot_eq (r : Ring) : r.acquireWriteSlot = if r.full then none else some r.wr := by
  simp [Ring.acquireWriteSlot, Ring.full]

theorem Ring.commitWriteSlot_of_empty (r : Ring) (k : SlotIdx) (h : (r.slots.frame k).size = 0#8) :
    r.commitWriteSlot k = r := by simp [Ring.commitWriteSlot, h]

theorem Ring.commitWriteSlot_of_nonempty (r : Ring) (k : SlotIdx) (h : (r.slots.frame k).size ≠ 0#8) :
    r.commitWriteSlot k = { r with wr := r.wr + 1 } := by
  have : 0#8 < (r.slots.frame k).size := by bv_omega
  simp [Ring.commitWriteSlot, this, nextSlot]

@[simp] theorem Ring.commitWriteSlot_slots (r : Ring) (k : SlotIdx) : (r.commitWriteSlot k).slots = r.slots := by
  unfold Ring.commitWriteSlot; split <;> rfl

@[simp] theorem Ring.commitWriteSlot_rd (r : Ring) (k : SlotIdx) : (r.commitWriteSlot k).rd = r.rd := by
  unfold Ring.commitWriteSlot; split <;> rfl

@[simp] theorem Ring.appendOption_none (r : Ring) (k : SlotIdx) : r.appendOption k none = r := rfl

@[simp] theorem Ring.appendOption_some (r : Ring) (k : SlotIdx) (b : Bool) :
    r.appendOption k (some b) = { r with slots := r.slots.append k b } := rfl

@[simp] theorem Ring.appendOption_rd (r : Ring) (k : SlotIdx) (b : Option Bool) : (r.appendOption k b).rd = r.rd := by
  cases b <;> rfl

@[simp] theorem Ring.appendOption_wr (r : Ring) (k : SlotIdx) (b : Option Bool) : (r.appendOption k b).wr = r.wr := by
  cases b <;> rfl

theorem Ring.appendOption_frame_of_ne (r : Ring) {k j : SlotIdx} (b : Option Bool) (h : j ≠ k) :
    (r.appendOption k b).slots.frame j = r.slots.frame j := by
  cases b with
  | none => rfl
  | some b => simp [Memory.frame_append, h]

/-- What an edge can do to the decoder and the ring (R140): one of three cases, by the order of the checks (R208). -/
theorem edgeEffect_cases (tm : TimingModel) (dec : Decoder) (r : Ring) (t : U32) :
    (r.full = true ∧ edgeEffect tm dec r t = (⟨.waitingForSync, t⟩, r))
    ∨ (r.full = false ∧ inWin (t - dec.lastEdge) tm.sync.high = true ∧
        edgeEffect tm dec r t = (⟨.waitingForLowSync, t⟩, r.commitWriteSlot r.wr))
    ∨ (r.full = false ∧ inWin (t - dec.lastEdge) tm.sync.high = false ∧
        edgeEffect tm dec r t = (⟨(classify tm dec.state (t - dec.lastEdge)).1, t⟩,
          r.appendOption r.wr (classify tm dec.state (t - dec.lastEdge)).2)) := by
  cases hf : r.full
  · cases hw : inWin (t - dec.lastEdge) tm.sync.high
    · simp [edgeEffect, r.acquireWriteSlot_eq, hf, Decoder.duration, hw]
    · simp [edgeEffect, r.acquireWriteSlot_eq, hf, Decoder.duration, hw]
  · simp [edgeEffect, r.acquireWriteSlot_eq, hf]

/-! ### The invariants of R33 -/

/-- The part of `Ring.Inv` that is not true of every ring. -/
theorem Ring.Inv.intro {r : Ring}
    (hc : ∀ s, r.committed s = true → 1#8 ≤ (r.slots.frame s).size ∧ (r.slots.frame s).size ≤ 128#8)
    (hz : ∀ s, r.committed s = false → s ≠ r.wr → (r.slots.frame s).size = 0#8)
    (hw : r.full = true → (r.slots.frame r.wr).size = 0#8) (hs : (r.slots.frame r.wr).size ≤ 128#8) : r.Inv where
  buffered_le := r.buffered_le_seven
  write_not_committed := r.wr_not_committed
  committed_size := hc
  free_size := hz
  full_write_empty := hw
  write_size := hs

theorem Ring.Inv.size_le {r : Ring} (h : r.Inv) (k : SlotIdx) : (r.slots.frame k).size ≤ 128#8 := by
  by_cases hc : r.committed k = true
  · exact (h.committed_size k hc).2
  · by_cases hk : k = r.wr
    · exact hk ▸ h.write_size
    · rw [h.free_size k (by simpa using hc) hk]
      decide

/-- In a ring that is not full, the slot after the write slot is free and empty. -/
theorem Ring.Inv.next_empty {r : Ring} (h : r.Inv) (hf : r.full = false) : (r.slots.frame (r.wr + 1)).size = 0#8 := by
  have hne := r.full_eq_false_iff.mp hf
  exact h.free_size _ (by simpa [r.committed_eq_false_iff] using slot_next_not_committed _ _ hne) (slot_next_ne _)

theorem Ring.Inv.commitWriteSlot {r : Ring} (h : r.Inv) (hf : r.full = false) : (r.commitWriteSlot r.wr).Inv := by
  by_cases h0 : (r.slots.frame r.wr).size = 0#8
  · rwa [r.commitWriteSlot_of_empty _ h0]
  · have hne := r.full_eq_false_iff.mp hf
    have hnext := h.next_empty hf
    rw [r.commitWriteSlot_of_nonempty _ h0]
    apply Ring.Inv.intro
    · intro k hk
      rw [Ring.committed_iff] at hk
      rcases (slot_committed_advance _ _ _ hne).mp hk with hk | rfl
      · exact h.committed_size k ((r.committed_iff k).mpr hk)
      · exact ⟨by have := h0; bv_omega, h.write_size⟩
    · intro k hk hkw
      have hn : ¬ ((k - r.rd).val < (r.wr - r.rd).val ∨ k = r.wr) := by
        rw [← slot_committed_advance _ _ _ hne]
        rw [Ring.committed_eq_false_iff] at hk
        exact Nat.not_lt.mpr hk
      push Not at hn
      exact h.free_size k ((r.committed_eq_false_iff k).mpr hn.1) hn.2
    · intro _; exact hnext
    · show (r.slots.frame (r.wr + 1)).size ≤ 128#8
      rw [hnext]; decide

theorem Ring.Inv.append {r : Ring} (h : r.Inv) (hf : r.full = false) (b : Option Bool) :
    (r.appendOption r.wr b).Inv := by
  cases b with
  | none => exact h
  | some b =>
    rw [Ring.appendOption_some]
    apply Ring.Inv.intro
    · intro k hk
      have hk' : r.committed k = true := hk
      have hkw : k ≠ r.wr := by rintro rfl; rw [r.wr_not_committed] at hk'; cases hk'
      simpa [Memory.frame_append, hkw] using h.committed_size k hk'
    · intro k hk hkw
      simpa [Memory.frame_append, show k ≠ r.wr from hkw] using h.free_size k hk hkw
    · intro hfull
      exact absurd hfull (by simpa [Ring.full] using hf)
    · simpa [Memory.frame_append] using Frame.append_size_le _ b h.write_size

theorem Ring.Inv.releaseHead {r : Ring} (h : r.Inv) (hne : r.rd ≠ r.wr) : (r.releaseHead r.rd).Inv := by
  apply Ring.Inv.intro
  · intro k hk
    obtain ⟨hk, hkr⟩ := (slot_committed_release _ _ k hne).mp ((Ring.committed_iff _ k).mp hk)
    simpa [Ring.releaseHead, Memory.frame_clear, hkr] using h.committed_size k ((r.committed_iff k).mpr hk)
  · intro k hk hkw
    by_cases hkr : k = r.rd
    · simp [Ring.releaseHead, Memory.frame_clear, hkr]
    · have hn : ¬ ((k - r.rd).val < (r.wr - r.rd).val ∧ k ≠ r.rd) := by
        rw [← slot_committed_release _ _ _ hne]
        exact Nat.not_lt.mpr ((Ring.committed_eq_false_iff _ k).mp hk)
      have hc : r.committed k = false := by
        rw [Ring.committed_eq_false_iff]
        exact Nat.not_lt.mp fun h => hn ⟨h, hkr⟩
      simpa [Ring.releaseHead, Memory.frame_clear, hkr] using h.free_size k hc hkw
  · intro hfull
    rw [Ring.full_iff_buffered] at hfull
    have := slot_buffered_release _ _ hne
    have h8 := (r.wr - r.rd).isLt
    simp only [Ring.buffered, Ring.releaseHead, nextSlot] at hfull
    omega
  · simpa [Ring.releaseHead, Memory.frame_clear, Ne.symm hne] using h.write_size

/-! ### The queue of committed frames -/

@[simp] theorem Ring.queue_length (r : Ring) : r.queue.length = r.buffered := by simp [Ring.queue]

theorem Ring.queue_getElem? (r : Ring) (n : Nat) :
    r.queue[n]? = if n < r.buffered then some (r.slots.frame (r.rd + Fin.ofNat 8 n)).content else none := by
  by_cases h : n < r.buffered <;> simp [Ring.queue, h]

theorem slot_sub_add_ofNat : ∀ (rd : SlotIdx) (n : Fin 8), (rd + n - rd).val = n.val := by decide

theorem slot_add_ofNat_pred : ∀ (rd : SlotIdx) (n : Fin 8), rd + 1 + n = rd + (n + 1) := by decide

/-- The n-th queued frame is in a committed slot. -/
theorem Ring.committed_of_lt (r : Ring) (n : Nat) (h : n < r.buffered) :
    r.committed (r.rd + Fin.ofNat 8 n) = true := by
  have h7 := r.buffered_le_seven
  rw [r.committed_iff, slot_sub_add_ofNat]
  simpa [Ring.buffered, Nat.mod_eq_of_lt (show n < 8 by omega)] using h

/-- Rings with the same indices and the same committed frames have the same queue. -/
theorem Ring.queue_congr {r q : Ring} (hrd : q.rd = r.rd) (hwr : q.wr = r.wr)
    (h : ∀ k, r.committed k = true → (q.slots.frame k).content = (r.slots.frame k).content) : q.queue = r.queue := by
  have hb : q.buffered = r.buffered := by simp [Ring.buffered, hrd, hwr]
  apply List.ext_getElem?
  intro n
  rw [q.queue_getElem?, r.queue_getElem?, hb, hrd]
  by_cases hn : n < r.buffered
  · simp only [hn, if_true, h _ (r.committed_of_lt n hn)]
  · simp only [hn, if_false]

/-- A commit puts the frame in progress at the back of the queue. -/
theorem Ring.queue_advance {r : Ring} (hnf : r.full = false) :
    ({ r with wr := r.wr + 1 } : Ring).queue = r.queue ++ [r.inProgress] := by
  have hne := (r.full_eq_false_iff).mp hnf
  have hb : ({ r with wr := r.wr + 1 } : Ring).buffered = r.buffered + 1 := slot_buffered_advance _ _ hne
  have key : ∀ rd wr : Fin 8, rd + Fin.ofNat 8 (wr - rd).val = wr := by decide
  unfold Ring.queue
  rw [hb, List.range_succ, List.map_append]
  congr 1
  simp only [List.map_cons, List.map_nil, Ring.inProgress]
  have := key r.rd r.wr
  rw [show r.rd + Fin.ofNat 8 r.buffered = r.wr from this]

/-- A release of the head slot takes the front of the queue off. -/
theorem Ring.queue_release {r : Ring} (hne : r.rd ≠ r.wr) :
    r.queue = (r.slots.frame r.rd).content :: (r.releaseHead r.rd).queue := by
  have hb := slot_buffered_release _ _ hne
  apply List.ext_getElem?
  intro n
  rw [r.queue_getElem?]
  have hb2 : (r.releaseHead r.rd).buffered + 1 = r.buffered := hb
  have h7 := r.buffered_le_seven
  cases n with
  | zero => simp only [List.getElem?_cons_zero, Fin.ofNat]; rw [if_pos (by omega)]; simp
  | succ n =>
    simp only [List.getElem?_cons_succ]
    rw [Ring.queue_getElem?]
    by_cases hn : n < (r.releaseHead r.rd).buffered
    · rw [if_pos (by omega), if_pos hn]
      have hfin : r.rd + Fin.ofNat 8 (n+1) = (r.releaseHead r.rd).rd + Fin.ofNat 8 n := by
        have key : ∀ (a : Fin 8) (n : Fin 7), a + Fin.ofNat 8 (n.val+1) = a + 1 + Fin.ofNat 8 n.val := by decide
        exact key r.rd ⟨n, by omega⟩
      rw [hfin]
      have hc := (r.releaseHead r.rd).committed_of_lt n hn
      have hne2 : (r.releaseHead r.rd).rd + Fin.ofNat 8 n ≠ r.rd := by
        intro he
        rw [he, Ring.committed_iff] at hc
        have := (slot_committed_release _ _ r.rd hne).mp hc
        exact this.2 rfl
      simp only [Ring.releaseHead] at hne2 ⊢
      rw [Memory.frame_clear, if_neg hne2]
    · rw [if_neg (by omega), if_neg hn]

/-- Appending to the write slot leaves the queue. -/
theorem Ring.queue_appendOption {r : Ring} (b : Option Bool) : (r.appendOption r.wr b).queue = r.queue := by
  apply Ring.queue_congr (by simp) (by simp)
  intro k hk
  rw [Ring.appendOption_frame_of_ne]
  rintro rfl; rw [r.wr_not_committed] at hk; cases hk

theorem Ring.not_full_of_room {r : Ring} (h : r.roomForBurst) : r.full = false := by
  by_contra hc
  have := (Ring.full_iff_buffered r).mp (by simpa using hc)
  rcases h with h | h <;> omega

/-- After the sync-high that opens a burst, the ring is still not full. -/
theorem Ring.not_full_at_burstSlot {r : Ring} (h : r.roomForBurst) : r.rd ≠ r.burstSlot + 1 := by
  have hnf := Ring.not_full_of_room h
  have hb := h
  unfold Ring.roomForBurst Ring.buffered at hb
  unfold Ring.burstSlot
  split
  · exact (Ring.full_eq_false_iff _).mp hnf
  · rename_i h0
    have : (r.wr - r.rd).val ≤ 5 := by rcases hb with hb | hb; exact hb; exact absurd hb.2 h0
    have key : ∀ rd wr : Fin 8, (wr - rd).val ≤ 5 → rd ≠ wr + 1 + 1 := by decide
    exact key _ _ this

end Sys2Proof.Machine
end

