-- ==== Sys2Proof/Laws/State.lean ====
section
/-! SUPPORT. What each named update does to each field of State: one lemma per field per update, true by rfl, so that no
proof unfolds a record update. -/

namespace Sys2Proof.Machine.State

variable (s : State)

@[simp] theorem withDec_tm (d : Decoder) : (s.withDec d).tm = s.tm := rfl
@[simp] theorem withDec_dec (d : Decoder) : (s.withDec d).dec = d := rfl
@[simp] theorem withDec_ring (d : Decoder) : (s.withDec d).ring = s.ring := rfl
@[simp] theorem withDec_enc (d : Decoder) : (s.withDec d).enc = s.enc := rfl
@[simp] theorem withDec_fault (d : Decoder) : (s.withDec d).fault = s.fault := rfl
@[simp] theorem withDec_refused (d : Decoder) : (s.withDec d).refused = s.refused := rfl
@[simp] theorem withDec_trace (d : Decoder) : (s.withDec d).trace = s.trace := rfl
@[simp] theorem withDec_resp (d : Decoder) : (s.withDec d).resp = s.resp := rfl
@[simp] theorem withDec_respTo (d : Decoder) : (s.withDec d).respTo = s.respTo := rfl
@[simp] theorem withDec_schedule (d : Decoder) : (s.withDec d).schedule = s.schedule := rfl

@[simp] theorem withRing_tm (r : Ring) : (s.withRing r).tm = s.tm := rfl
@[simp] theorem withRing_dec (r : Ring) : (s.withRing r).dec = s.dec := rfl
@[simp] theorem withRing_ring (r : Ring) : (s.withRing r).ring = r := rfl
@[simp] theorem withRing_enc (r : Ring) : (s.withRing r).enc = s.enc := rfl
@[simp] theorem withRing_fault (r : Ring) : (s.withRing r).fault = s.fault := rfl
@[simp] theorem withRing_refused (r : Ring) : (s.withRing r).refused = s.refused := rfl
@[simp] theorem withRing_trace (r : Ring) : (s.withRing r).trace = s.trace := rfl
@[simp] theorem withRing_resp (r : Ring) : (s.withRing r).resp = s.resp := rfl
@[simp] theorem withRing_respTo (r : Ring) : (s.withRing r).respTo = s.respTo := rfl
@[simp] theorem withRing_schedule (r : Ring) : (s.withRing r).schedule = s.schedule := rfl

@[simp] theorem withEnc_tm (e : Encoder) : (s.withEnc e).tm = s.tm := rfl
@[simp] theorem withEnc_dec (e : Encoder) : (s.withEnc e).dec = s.dec := rfl
@[simp] theorem withEnc_ring (e : Encoder) : (s.withEnc e).ring = s.ring := rfl
@[simp] theorem withEnc_enc (e : Encoder) : (s.withEnc e).enc = e := rfl
@[simp] theorem withEnc_fault (e : Encoder) : (s.withEnc e).fault = s.fault := rfl
@[simp] theorem withEnc_refused (e : Encoder) : (s.withEnc e).refused = s.refused := rfl
@[simp] theorem withEnc_trace (e : Encoder) : (s.withEnc e).trace = s.trace := rfl
@[simp] theorem withEnc_resp (e : Encoder) : (s.withEnc e).resp = s.resp := rfl
@[simp] theorem withEnc_respTo (e : Encoder) : (s.withEnc e).respTo = s.respTo := rfl
@[simp] theorem withEnc_schedule (e : Encoder) : (s.withEnc e).schedule = s.schedule := rfl

@[simp] theorem withSchedule_tm (es : List Event) : (s.withSchedule es).tm = s.tm := rfl
@[simp] theorem withSchedule_dec (es : List Event) : (s.withSchedule es).dec = s.dec := rfl
@[simp] theorem withSchedule_ring (es : List Event) : (s.withSchedule es).ring = s.ring := rfl
@[simp] theorem withSchedule_enc (es : List Event) : (s.withSchedule es).enc = s.enc := rfl
@[simp] theorem withSchedule_fault (es : List Event) : (s.withSchedule es).fault = s.fault := rfl
@[simp] theorem withSchedule_refused (es : List Event) : (s.withSchedule es).refused = s.refused := rfl
@[simp] theorem withSchedule_trace (es : List Event) : (s.withSchedule es).trace = s.trace := rfl
@[simp] theorem withSchedule_resp (es : List Event) : (s.withSchedule es).resp = s.resp := rfl
@[simp] theorem withSchedule_respTo (es : List Event) : (s.withSchedule es).respTo = s.respTo := rfl
@[simp] theorem withSchedule_schedule (es : List Event) : (s.withSchedule es).schedule = es := rfl

@[simp] theorem respond_tm (r : RespWord) : (s.respond r).tm = s.tm := rfl
@[simp] theorem respond_dec (r : RespWord) : (s.respond r).dec = s.dec := rfl
@[simp] theorem respond_ring (r : RespWord) : (s.respond r).ring = s.ring := rfl
@[simp] theorem respond_enc (r : RespWord) : (s.respond r).enc = s.enc := rfl
@[simp] theorem respond_fault (r : RespWord) : (s.respond r).fault = s.fault := rfl
@[simp] theorem respond_refused (r : RespWord) : (s.respond r).refused = s.refused := rfl
@[simp] theorem respond_trace (r : RespWord) : (s.respond r).trace = s.trace := rfl
@[simp] theorem respond_resp (r : RespWord) : (s.respond r).resp = r := rfl
@[simp] theorem respond_respTo (r : RespWord) : (s.respond r).respTo = s.respTo := rfl
@[simp] theorem respond_schedule (r : RespWord) : (s.respond r).schedule = s.schedule := rfl

@[simp] theorem emit_tm (g : Segment) : (s.emit g).tm = s.tm := rfl
@[simp] theorem emit_dec (g : Segment) : (s.emit g).dec = s.dec := rfl
@[simp] theorem emit_ring (g : Segment) : (s.emit g).ring = s.ring := rfl
@[simp] theorem emit_enc (g : Segment) : (s.emit g).enc = s.enc := rfl
@[simp] theorem emit_fault (g : Segment) : (s.emit g).fault = s.fault := rfl
@[simp] theorem emit_refused (g : Segment) : (s.emit g).refused = s.refused := rfl
@[simp] theorem emit_trace (g : Segment) : (s.emit g).trace = s.trace ++ [g] := rfl
@[simp] theorem emit_resp (g : Segment) : (s.emit g).resp = s.resp := rfl
@[simp] theorem emit_respTo (g : Segment) : (s.emit g).respTo = s.respTo := rfl
@[simp] theorem emit_schedule (g : Segment) : (s.emit g).schedule = s.schedule := rfl

@[simp] theorem raiseFault_tm (c : Fault) (i : Instr) : (s.raiseFault c i).tm = s.tm := rfl
@[simp] theorem raiseFault_dec (c : Fault) (i : Instr) : (s.raiseFault c i).dec = s.dec := rfl
@[simp] theorem raiseFault_ring (c : Fault) (i : Instr) : (s.raiseFault c i).ring = s.ring := rfl
@[simp] theorem raiseFault_enc (c : Fault) (i : Instr) : (s.raiseFault c i).enc = s.enc := rfl
@[simp] theorem raiseFault_fault (c : Fault) (i : Instr) : (s.raiseFault c i).fault = s.fault ++ [⟨c, encode i⟩] := rfl
@[simp] theorem raiseFault_refused (c : Fault) (i : Instr) : (s.raiseFault c i).refused = s.refused := rfl
@[simp] theorem raiseFault_trace (c : Fault) (i : Instr) : (s.raiseFault c i).trace = s.trace := rfl
@[simp] theorem raiseFault_resp (c : Fault) (i : Instr) : (s.raiseFault c i).resp = 0 := rfl
@[simp] theorem raiseFault_respTo (c : Fault) (i : Instr) : (s.raiseFault c i).respTo = s.respTo := rfl
@[simp] theorem raiseFault_schedule (c : Fault) (i : Instr) : (s.raiseFault c i).schedule = s.schedule := rfl

@[simp] theorem refuseIllegal_tm : s.refuseIllegal.tm = s.tm := rfl
@[simp] theorem refuseIllegal_dec : s.refuseIllegal.dec = s.dec := rfl
@[simp] theorem refuseIllegal_ring : s.refuseIllegal.ring = s.ring := rfl
@[simp] theorem refuseIllegal_enc : s.refuseIllegal.enc = s.enc := rfl
@[simp] theorem refuseIllegal_fault : s.refuseIllegal.fault = s.fault := rfl
@[simp] theorem refuseIllegal_refused : s.refuseIllegal.refused = true := rfl
@[simp] theorem refuseIllegal_trace : s.refuseIllegal.trace = s.trace := rfl
@[simp] theorem refuseIllegal_resp : s.refuseIllegal.resp = s.resp := rfl
@[simp] theorem refuseIllegal_respTo : s.refuseIllegal.respTo = s.respTo := rfl
@[simp] theorem refuseIllegal_schedule : s.refuseIllegal.schedule = s.schedule := rfl

@[simp] theorem accept_tm (p : Port) (es : List Event) : (s.accept p es).tm = s.tm := rfl
@[simp] theorem accept_dec (p : Port) (es : List Event) : (s.accept p es).dec = s.dec := rfl
@[simp] theorem accept_ring (p : Port) (es : List Event) : (s.accept p es).ring = s.ring := rfl
@[simp] theorem accept_enc (p : Port) (es : List Event) : (s.accept p es).enc = s.enc := rfl
@[simp] theorem accept_fault (p : Port) (es : List Event) : (s.accept p es).fault = s.fault := rfl
@[simp] theorem accept_refused (p : Port) (es : List Event) : (s.accept p es).refused = s.refused := rfl
@[simp] theorem accept_trace (p : Port) (es : List Event) : (s.accept p es).trace = s.trace := rfl
@[simp] theorem accept_resp (p : Port) (es : List Event) : (s.accept p es).resp = s.resp := rfl
@[simp] theorem accept_respTo (p : Port) (es : List Event) : (s.accept p es).respTo = p := rfl
@[simp] theorem accept_schedule (p : Port) (es : List Event) : (s.accept p es).schedule = es := rfl

@[simp] theorem txSegmentStep_tm : s.txSegmentStep.tm = s.tm := rfl
@[simp] theorem txSegmentStep_dec : s.txSegmentStep.dec = s.dec := rfl
@[simp] theorem txSegmentStep_ring : s.txSegmentStep.ring = s.ring := rfl
@[simp] theorem txSegmentStep_enc : s.txSegmentStep.enc = s.enc.advance := rfl
@[simp] theorem txSegmentStep_fault : s.txSegmentStep.fault = s.fault := rfl
@[simp] theorem txSegmentStep_refused : s.txSegmentStep.refused = s.refused := rfl
@[simp] theorem txSegmentStep_trace : s.txSegmentStep.trace = s.trace ++ [s.enc.segment s.tm] := rfl
@[simp] theorem txSegmentStep_resp : s.txSegmentStep.resp = s.resp := rfl
@[simp] theorem txSegmentStep_respTo : s.txSegmentStep.respTo = s.respTo := rfl
@[simp] theorem txSegmentStep_schedule : s.txSegmentStep.schedule = s.schedule := rfl

@[simp] theorem applyReset_tm (le : U32) (bits : Vector SlotBits 8) : (s.applyReset le bits).tm = s.tm := rfl
@[simp] theorem applyReset_dec (le : U32) (bits : Vector SlotBits 8) : (s.applyReset le bits).dec = ⟨.waitingForSync, le⟩ := rfl
@[simp] theorem applyReset_ring (le : U32) (bits : Vector SlotBits 8) : (s.applyReset le bits).ring = ⟨0, 0, Vector.ofFn fun k => ⟨0, bits[k.val]⟩⟩ := rfl
@[simp] theorem applyReset_enc (le : U32) (bits : Vector SlotBits 8) : (s.applyReset le bits).enc = .atReset := rfl
@[simp] theorem applyReset_fault (le : U32) (bits : Vector SlotBits 8) : (s.applyReset le bits).fault = [] := rfl
@[simp] theorem applyReset_refused (le : U32) (bits : Vector SlotBits 8) : (s.applyReset le bits).refused = false := rfl
@[simp] theorem applyReset_trace (le : U32) (bits : Vector SlotBits 8) : (s.applyReset le bits).trace = [] := rfl
@[simp] theorem applyReset_resp (le : U32) (bits : Vector SlotBits 8) : (s.applyReset le bits).resp = 0 := rfl
@[simp] theorem applyReset_respTo (le : U32) (bits : Vector SlotBits 8) : (s.applyReset le bits).respTo = .consumer := rfl
@[simp] theorem applyReset_schedule (le : U32) (bits : Vector SlotBits 8) : (s.applyReset le bits).schedule = s.schedule := rfl

@[simp] theorem atReset_tm (tm : TimingModel) (le : U32) (bits : Vector SlotBits 8) : (atReset tm le bits).tm = tm := rfl
@[simp] theorem atReset_dec (tm : TimingModel) (le : U32) (bits : Vector SlotBits 8) : (atReset tm le bits).dec = ⟨.waitingForSync, le⟩ := rfl
@[simp] theorem atReset_ring (tm : TimingModel) (le : U32) (bits : Vector SlotBits 8) : (atReset tm le bits).ring = ⟨0, 0, Vector.ofFn fun k => ⟨0, bits[k.val]⟩⟩ := rfl
@[simp] theorem atReset_enc (tm : TimingModel) (le : U32) (bits : Vector SlotBits 8) : (atReset tm le bits).enc = .atReset := rfl
@[simp] theorem atReset_fault (tm : TimingModel) (le : U32) (bits : Vector SlotBits 8) : (atReset tm le bits).fault = [] := rfl
@[simp] theorem atReset_refused (tm : TimingModel) (le : U32) (bits : Vector SlotBits 8) : (atReset tm le bits).refused = false := rfl
@[simp] theorem atReset_trace (tm : TimingModel) (le : U32) (bits : Vector SlotBits 8) : (atReset tm le bits).trace = [] := rfl
@[simp] theorem atReset_resp (tm : TimingModel) (le : U32) (bits : Vector SlotBits 8) : (atReset tm le bits).resp = 0 := rfl
@[simp] theorem atReset_respTo (tm : TimingModel) (le : U32) (bits : Vector SlotBits 8) : (atReset tm le bits).respTo = .consumer := rfl
@[simp] theorem atReset_schedule (tm : TimingModel) (le : U32) (bits : Vector SlotBits 8) : (atReset tm le bits).schedule = [] := rfl

end Sys2Proof.Machine.State
end

