-- ==== Sys2Proof/Laws/Exec.lean ====
section
/-! SUPPORT. What each command and a step can do: one equation or inversion lemma each, which proofs cite instead of
unfolding the meaning. -/

namespace Sys2Proof.Machine

/-! ### Commands -/

theorem exec_edge (t : U32) (s : State) : exec (.edge t) s =
    .next (((s.withDec (edgeEffect s.tm s.dec s.ring t).1).withRing (edgeEffect s.tm s.dec s.ring t).2).respond 0) := rfl

theorem exec_rdAcquire (s : State) : exec .rdAcquire s = .next (s.respond
    (if s.ring.rd = s.ring.wr then 0 else acquireResponse s.ring.rd (s.ring.slots.frame s.ring.rd).size)) := by
  simp only [exec, execRdAcquire]
  split <;> rfl

theorem exec_rdBit (k : SlotIdx) (i : BitIdx) (s : State) : exec (.rdBit k i) s = .next
    (if s.ring.isHead k then s.respond (bitResponse ((s.ring.slots.frame k).visibleBit i.val))
      else s.raiseFault .consumerProtocol (.rdBit k i)) := by
  simp only [exec, execRdBit]
  split <;> rfl

theorem exec_rdWord (k : SlotIdx) (w : WordSel) (s : State) : exec (.rdWord k w) s = .next
    (if s.ring.isHead k then s.respond ((s.ring.slots.frame k).visibleWord w)
      else s.raiseFault .consumerProtocol (.rdWord k w)) := by
  simp only [exec, execRdWord]
  split <;> rfl

theorem exec_rdRelease (k : SlotIdx) (s : State) : exec (.rdRelease k) s = .next
    (if (s.ring.slots.frame k).size = 0 then s.respond 0
      else if s.ring.isHead k then (s.withRing (s.ring.releaseHead k)).respond 0
      else s.raiseFault .consumerProtocol (.rdRelease k)) := by
  simp only [exec, execRdRelease]
  split
  · rfl
  · split <;> rfl

theorem exec_txStart (code : U64) (rep : U8) (s : State) : exec (.txStart code rep) s = .next
    (if s.enc.busy then s.raiseFault .txBusy (.txStart code rep)
      else if rep = 0 then s.respond 0
      else (s.withEnc (s.enc.start code rep)).respond 0) := by
  simp only [exec, execTxStart]
  split
  · rfl
  · split <;> rfl

theorem exec_status (s : State) : exec .status s = .next (s.respond (statusResponse s)) := rfl

/-- What no command changes. -/
theorem exec_frame {i : Instr} {s t : State} (h : exec i s = .next t) :
     t.tm = s.tm ∧ t.refused = s.refused ∧ t.trace = s.trace ∧ t.schedule = s.schedule ∧ t.respTo = s.respTo ∧ t.enc.pin = s.enc.pin
    ∧ s.fault <+: t.fault := by
  cases i with
  | edge x => rw [exec_edge] at h; cases h; simp
  | rdAcquire => rw [exec_rdAcquire] at h; cases h; simp
  | rdBit k i => rw [exec_rdBit] at h; cases h; split <;> simp
  | rdWord k i => rw [exec_rdWord] at h; cases h; split <;> simp
  | rdRelease k => rw [exec_rdRelease] at h; cases h; split; · simp
                   · split <;> simp
  | txStart c r => rw [exec_txStart] at h; cases h; split; · simp
                   · split <;> simp [Encoder.start]
  | status => rw [exec_status] at h; cases h; simp

/-! ### A step -/

/-- What a step that answers a next state did: one of these moves. -/
theorem step_cases {s t : State} (h : step s = .next t) :
    (s.schedule = [] ∧ t = (if s.enc.busy then s.txSegmentStep else s))
    ∨ (∃ p w rest e, s.schedule = .command p w :: rest ∧ decode w = .illegal e ∧
        t = (s.withSchedule rest).refuseIllegal)
    ∨ (∃ p w rest i, s.schedule = .command p w :: rest ∧ decode w = .command i ∧ p.mayIssue i = true ∧
        exec i (s.accept p rest) = .next t)
    ∨ (∃ rest, s.schedule = .txStep :: rest ∧ s.enc.busy = true ∧ t = (s.withSchedule rest).txSegmentStep)
    ∨ (∃ rest, s.schedule = .txRun :: rest ∧ t = (if s.enc.busy then s.txSegmentStep else s.withSchedule rest))
    ∨ (∃ le bits rest, s.schedule = .reset le bits :: rest ∧ t = (s.withSchedule rest).applyReset le bits) := by
  unfold step at h
  rcases hs : s.schedule with _ | ⟨⟨p, w⟩ | _ | _ | ⟨le, bits⟩, rest⟩ <;> rw [hs] at h <;> simp only at h
  · cases h; exact .inl ⟨rfl, rfl⟩
  · rcases hd : decode w with i | e <;> rw [hd] at h <;> simp only at h
    · cases hm : p.mayIssue i <;> simp [hm] at h
      exact .inr (.inr (.inl ⟨p, w, rest, i, rfl, hd, hm, h⟩))
    · cases h; exact .inr (.inl ⟨p, w, rest, e, rfl, hd, rfl⟩)
  · cases hb : s.enc.busy <;> simp [hb] at h
    exact .inr (.inr (.inr (.inl ⟨rest, rfl, rfl, h.symm⟩)))
  · cases h; exact .inr (.inr (.inr (.inr (.inl ⟨rest, rfl, rfl⟩))))
  · cases h; exact .inr (.inr (.inr (.inr (.inr ⟨le, bits, rest, rfl, rfl⟩))))

theorem step_of_idle {s : State} (h : s.schedule = []) (hb : s.enc.busy = false) : step s = .next s := by
  simp [step, h, hb]

theorem step_of_busy {s : State} (h : s.schedule = []) (hb : s.enc.busy = true) : step s = .next s.txSegmentStep := by
  simp [step, h, hb]

theorem step_of_txStep {s : State} {rest : List Event} (h : s.schedule = .txStep :: rest) (hb : s.enc.busy = true) :
    step s = .next (s.withSchedule rest).txSegmentStep := by
  simp [step, h, hb]

theorem step_of_txStep_idle {s : State} {rest : List Event} (h : s.schedule = .txStep :: rest) (hb : s.enc.busy = false) :
    step s = .refused .txSequencerNotEnabled := by
  simp [step, h, hb]

/-- TXRUN stays the next event while the sequencer is busy (log 16). -/
theorem step_of_txRun {s : State} {rest : List Event} (h : s.schedule = .txRun :: rest) (hb : s.enc.busy = true) :
    step s = .next s.txSegmentStep := by
  simp [step, h, hb]

theorem step_of_txRun_idle {s : State} {rest : List Event} (h : s.schedule = .txRun :: rest) (hb : s.enc.busy = false) :
    step s = .next (s.withSchedule rest) := by
  simp [step, h, hb]

theorem execAll_cons (i : Instr) (is : List Instr) (s t : State) (h : exec i s = .next t) :
    execAll (i :: is) s = execAll is t := by simp [execAll, h]

theorem execAll_append (is js : List Instr) (s t : State) (h : execAll is s = .next t) :
    execAll (is ++ js) s = execAll js t := by
  induction is generalizing s with
  | nil => cases h; rfl
  | cons i is ih =>
    simp only [execAll, List.cons_append] at h ⊢
    split at h
    · exact ih _ h
    · cases h
    · cases h

/-! ### The TX sequencer -/

theorem Encoder.advance_of_high (e : Encoder) (h : e.phase = .high) :
    e.advance = { e with pin := true, phase := .low } := by simp [Encoder.advance, h]

theorem Encoder.advance_of_low (e : Encoder) (h : e.phase = .low) (hp : e.pos.toNat < 64) :
    e.advance = { e with pin := false, phase := .high, pos := e.pos + 1 } := by
  simp [Encoder.advance, h, Encoder.finishSymbol, hp]

theorem Encoder.advance_of_end (e : Encoder) (h : e.phase = .low) (hp : 64 ≤ e.pos.toNat) (hr : e.repLeft ≠ 1) :
    e.advance = { e with pin := false, phase := .high, pos := 0, repLeft := e.repLeft - 1 } := by
  have : e.repLeft - 1#8 ≠ 0#8 := by bv_omega
  simp [Encoder.advance, h, Encoder.finishSymbol, Nat.not_lt.mpr hp, this]

theorem Encoder.advance_of_last (e : Encoder) (h : e.phase = .low) (hp : 64 ≤ e.pos.toNat) (hr : e.repLeft = 1) :
    e.advance = { e with pin := false, phase := .high, pos := 0, repLeft := 0, busy := false } := by
  simp [Encoder.advance, h, Encoder.finishSymbol, Nat.not_lt.mpr hp, hr]

/-- Several TX segment steps, one after the other. -/
def txSteps : Nat → State → State
  | 0, s => s
  | n + 1, s => txSteps n s.txSegmentStep

theorem txSteps_add (a b : Nat) (s : State) : txSteps (a + b) s = txSteps b (txSteps a s) := by
  induction a generalizing s with
  | zero => simp [txSteps]
  | succ a ih => rw [Nat.add_right_comm]; exact ih _

/-- The sequencer leaves the receive side and the records of faults alone (R175). -/
theorem txSteps_frame (n : Nat) : ∀ s : State, (txSteps n s).tm = s.tm ∧ (txSteps n s).dec = s.dec
    ∧ (txSteps n s).ring = s.ring ∧ (txSteps n s).fault = s.fault ∧ (txSteps n s).schedule = s.schedule := by
  induction n with
  | zero => intro s; simp [txSteps]
  | succ n ih => intro s; exact ih s.txSegmentStep

/-- A run of one step more. -/
theorem run_succ {s t : State} (n : Nat) (h : step s = .next t) :
    Host.Core.run Sys2Proof.core (n + 1) s = Host.Core.run Sys2Proof.core n t := by
  have hc : Sys2Proof.core.step s = .next t := h
  simp only [Host.Core.run, hc]

/-- With no event pending, the machine runs the sequencer as long as it is busy (log 2). -/
theorem run_txSteps (n : Nat) : ∀ s : State, s.schedule = [] → (∀ k, k < n → (txSteps k s).enc.busy = true) →
    Host.Core.run Sys2Proof.core n s = .next (txSteps n s) := by
  induction n with
  | zero => intro s _ _; rfl
  | succ n ih =>
    intro s hs hb
    rw [run_succ n (step_of_busy hs (hb 0 (by omega)))]
    exact ih _ hs (fun k hk => hb (k + 1) (by omega))

/-- With no event pending, no step stops. -/
theorem run_of_no_event (n : Nat) : ∀ s : State, s.schedule = [] → ∃ t, Host.Core.run Sys2Proof.core n s = .next t := by
  induction n with
  | zero => intro s _; exact ⟨s, rfl⟩
  | succ n ih =>
    intro s hs
    cases hb : s.enc.busy
    · rw [run_succ n (step_of_idle hs hb)]; exact ih s hs
    · rw [run_succ n (step_of_busy hs hb)]; exact ih _ hs

/-- The two segment steps of one symbol (R172). -/
theorem txSteps_symbol (s : State) (hp : s.enc.phase = .high) :
    (txSteps 2 s).trace = s.trace ++ symbolSegments (s.enc.symbol s.tm) ∧ (txSteps 1 s).enc.busy = s.enc.busy
    ∧ (txSteps 2 s).enc = Encoder.finishSymbol { s.enc with pin := true, phase := .low } := by
  refine ⟨?_, ?_, ?_⟩
  · simp [txSteps, Encoder.advance, hp, Encoder.segment, symbolSegments, Encoder.symbol]
  · simp [txSteps, Encoder.advance, hp]
  · simp [txSteps, Encoder.advance, hp]

/-! ### Timestamps -/

theorem timesOf_append (T : U32) (a b : List U32) :
    timesOf T (a ++ b) = timesOf T a ++ timesOf (cursorAfter T a) b := by
  induction a generalizing T with
  | nil => rfl
  | cons x a ih => simp [timesOf, cursorAfter, ih]

@[simp] theorem timesOf_length (T : U32) (a : List U32) : (timesOf T a).length = a.length := by
  induction a generalizing T with
  | nil => rfl
  | cons x a ih => simp [timesOf, ih]

/-- The k-th timestamp is the cursor plus the durations up to it. -/
theorem timesOf_getElem? (T : U32) (a : List U32) :
    ∀ k, k < a.length → (timesOf T a)[k]? = some (T + (a.take (k + 1)).sum) := by
  induction a generalizing T with
  | nil => intro k h; simp at h
  | cons x a ih =>
    intro k h
    cases k with
    | zero => simp [timesOf]
    | succ k =>
      simp only [timesOf, List.getElem?_cons_succ, List.take_succ_cons, List.sum_cons]
      rw [ih _ k (by simpa using h), BitVec.add_assoc]

end Sys2Proof.Machine
end

