-- ==== Sys2Proof/Laws/Response.lean ====
section
/-! SUPPORT. The response words bit by bit (R75, R190). -/

namespace Sys2Proof.Machine

/-- The bits of the response of RD_ACQUIRE on a ring that is not empty (R75). -/
theorem acquireResponse_getLsbD (k : SlotIdx) (z : U8) : ∀ n, n < 64 → (acquireResponse k z).getLsbD n =
    if n < 1 then true else if n < 4 then (BitVec.ofNat 3 k.val).getLsbD (n - 1) else z.getLsbD (n - 4) := by
  intro n hn
  simp only [acquireResponse, BitVec.getLsbD_setWidth, BitVec.getLsbD_append, hn, decide_true, Bool.true_and]
  repeat' split
  all_goals first | omega | rfl | skip
  all_goals (obtain rfl : n = 0 := by omega)
  all_goals decide

/-- The bits of the response of STATUS (R190). -/
theorem statusResponse_getLsbD (s : State) : ∀ n, n < 64 → (statusResponse s).getLsbD n =
    if n < 3 then s.dec.state.encoding.getLsbD n
    else if n < 6 then (BitVec.ofNat 3 s.ring.wr.val).getLsbD (n - 3)
    else if n < 9 then (BitVec.ofNat 3 s.ring.rd.val).getLsbD (n - 6)
    else if n < 10 then s.enc.busy else if n < 11 then s.enc.pin
    else (s.ring.slots.frame s.ring.wr).size.getLsbD (n - 11) := by
  intro n hn
  simp only [statusResponse, Ring.index, BitVec.getLsbD_setWidth, BitVec.getLsbD_append, hn, decide_true, Bool.true_and, BitVec.getLsbD_ofBool]
  repeat' split
  all_goals first | omega | rfl | (simp; omega)

end Sys2Proof.Machine
end

