-- ==== Sys2Proof/Tests/Slice0.lean ====
section
/-! SUPPORT. The model's own tests, with expected values from spec/95_test_vectors.md (L1, L2) and spec/30_encoding.md, and a
witness for every obligation that has hypotheses. -/

namespace Sys2Proof.Tests

open Sys2Proof Sys2Proof.Machine

/-! ### Small states -/

/-- The state of a next outcome. -/
def nextOf : Host.Outcome State Fault Refusal → Option State
  | .next s => some s
  | .fault _ => none
  | .refused _ => none

/-- One field of the next state. -/
def look {α : Type} (o : Host.Outcome State Fault Refusal) (f : State → α) : Option α := (nextOf o).map f

/-- The start state of L2.2: `rd = wr = 0`, `size[0] = 3`, the last edge at 0. -/
def edgeState (d : DecState) : State :=
  { State.reset with dec := ⟨d, 0⟩, ring := ⟨0, 0, State.reset.ring.slots.setFrame 0 ⟨3, 5⟩⟩ }

/-- Slot 0 holds a committed 64-bit frame, slot 1 three bits of the frame in progress; bits beyond every size are set. -/
def readState : State :=
  { State.reset with
    dec := ⟨.waitingForHigh, 1000⟩
    ring := ⟨0, 1, (State.reset.ring.slots.setFrame 0 ⟨64, 0xFFFF0123456789ABCDEF⟩).setFrame 1 ⟨3, 0xFD⟩⟩ }

/-- Seven committed one-bit frames: the ring is full. -/
def fullState : State :=
  { State.reset with ring := ⟨0, 7, Vector.ofFn fun k => if k.val < 7 then ⟨1, 1⟩ else ⟨0, 1⟩⟩ }

/-- Six committed frames and an empty write slot. -/
def sixState : State :=
  { State.reset with ring := ⟨0, 6, Vector.ofFn fun k => if k.val < 6 then ⟨1, 1⟩ else ⟨0, 1⟩⟩ }

/-- Five committed frames and 128 bits in the write slot. -/
def fiveState : State :=
  { State.reset with
    ring := ⟨0, 5, Vector.ofFn fun k => if k.val < 5 then ⟨1, 1⟩ else if k.val = 5 then ⟨128, 0⟩ else ⟨0, 1⟩⟩ }

/-- A transmission at a given position. -/
def txState (code : U64) (repLeft : U8) (pos : BitVec 7) (phase : Phase) : State :=
  { State.reset with enc := ⟨true, phase == .low, code, repLeft, pos, phase⟩ }

/-- A state with a schedule. -/
def given (s : State) (es : List Event) : State := { s with schedule := es }

theorem readState_inv : readState.Inv :=
  ⟨⟨by decide, by decide, by decide, by decide, by decide, by decide⟩, ⟨by decide, by decide, by decide⟩⟩

theorem fullState_inv : fullState.Inv :=
  ⟨⟨by decide, by decide, by decide, by decide, by decide, by decide⟩, ⟨by decide, by decide, by decide⟩⟩

theorem sixState_inv : sixState.Inv :=
  ⟨⟨by decide, by decide, by decide, by decide, by decide, by decide⟩, ⟨by decide, by decide, by decide⟩⟩

theorem fiveState_inv : fiveState.Inv :=
  ⟨⟨by decide, by decide, by decide, by decide, by decide, by decide⟩, ⟨by decide, by decide, by decide⟩⟩

theorem txState_inv : (txState 3 1 64 .low).Inv :=
  ⟨⟨by decide, by decide, by decide, by decide, by decide, by decide⟩, ⟨by decide, by decide, by decide⟩⟩

theorem given_inv {s : State} (h : s.Inv) (es : List Event) : (given s es).Inv := ⟨h.ring, h.enc⟩

/-! ### WellFormed smoke: an ill-formed term for each check of R82, refused -/

theorem test_wellFormed_edge : AsmCommand.toInstr? (.edge (2 ^ 32)) = none
    ∧ AsmCommand.toInstr? (.edge (2 ^ 32 - 1)) = some (.edge 0xFFFFFFFF) := by decide

theorem test_wellFormed_rdBit_slot : AsmCommand.toInstr? (.rdBit 8 0) = none
    ∧ AsmCommand.toInstr? (.rdBit 7 0) = some (.rdBit 7 0) := by decide

theorem test_wellFormed_rdBit_index : AsmCommand.toInstr? (.rdBit 0 128) = none
    ∧ AsmCommand.toInstr? (.rdBit 0 127) = some (.rdBit 0 127) := by decide

theorem test_wellFormed_rdWord_slot : AsmCommand.toInstr? (.rdWord 8 0) = none := by decide

theorem test_wellFormed_rdWord_select : AsmCommand.toInstr? (.rdWord 0 2) = none
    ∧ AsmCommand.toInstr? (.rdWord 0 1) = some (.rdWord 0 1) := by decide

theorem test_wellFormed_rdRelease : AsmCommand.toInstr? (.rdRelease 8) = none
    ∧ AsmCommand.toInstr? (.rdRelease 7) = some (.rdRelease 7) := by decide

theorem test_wellFormed_txStart_code : AsmCommand.toInstr? (.txStart (2 ^ 64) 1) = none
    ∧ AsmCommand.toInstr? (.txStart (2 ^ 64 - 1) 1) = some (.txStart 0xFFFFFFFFFFFFFFFF 1) := by decide

theorem test_wellFormed_txStart_rep : AsmCommand.toInstr? (.txStart 0 256) = none
    ∧ AsmCommand.toInstr? (.txStart 0 255) = some (.txStart 0 255) := by decide

/-! ### Decoding: words written out from R70 and R72, and the words of L2.7 and of the programs P1 to P5 -/

theorem test_decode_edge : decode 0x000000000000145000000001#96 = .command (.edge 5200)
    ∧ decode 0x00000000FFFFFFFF00000001#96 = .command (.edge 0xFFFFFFFF) := by decide

theorem test_decode_rdAcquire : decode 0x000000000000000000000002#96 = .command .rdAcquire := by decide

theorem test_decode_rdBit : decode 0x000000000000000000007F03#96 = .command (.rdBit 0 127)
    ∧ decode 0x000000000000000000004053#96 = .command (.rdBit 5 64) := by decide

theorem test_decode_rdWord : decode 0x000000000000000000000104#96 = .command (.rdWord 0 1)
    ∧ decode 0x000000000000000000000034#96 = .command (.rdWord 3 0) := by decide

theorem test_decode_rdRelease : decode 0x000000000000000000000075#96 = .command (.rdRelease 7) := by decide

theorem test_decode_txStart : decode 0x0123456789ABCDEF00010006#96 = .command (.txStart 0x0123456789ABCDEF 1)
    ∧ decode 0xFFFFFFFFFFFFFFFF00FF0006#96 = .command (.txStart 0xFFFFFFFFFFFFFFFF 255) := by decide

theorem test_decode_status : decode 0x000000000000000000000007#96 = .command .status := by decide

theorem test_decode_illegal_op : decode 0x0#96 = .illegal (.reservedOp 0) ∧ decode 0x8#96 = .illegal (.reservedOp 8)
    ∧ decode 0xF#96 = .illegal (.reservedOp 15) := by decide

theorem test_decode_illegal_reserved_bits : decode 0x000000010000000000000001#96 = .illegal (.nonzeroReservedBits 1)
    ∧ decode 0x000000000000000000000204#96 = .illegal (.nonzeroReservedBits 4)
    ∧ decode 0x000000000000000000000085#96 = .illegal (.nonzeroReservedBits 5)
    ∧ decode 0x000000000000000001000002#96 = .illegal (.nonzeroReservedBits 2) := by decide

theorem test_decodeTableWord : decodeTableWord 96 0x0123456789ABCDEF00010006 = some (.txStart 0x0123456789ABCDEF 1)
    ∧ decodeTableWord 8 0x75 = some (.rdRelease 7) ∧ decodeTableWord 96 8 = none := by decide

/-! ### One step of each command (L1.2, L2.1 to L2.6) -/

/-- L2.1. -/
theorem test_deriveBounds : deriveBounds 5200 200 200 = some (5000, 5400) ∧ deriveBounds 200 50 150 = some (150, 350)
    ∧ deriveBounds 600 100 100 = some (500, 700) ∧ deriveBounds 100 150 0 = none := by decide

/-- The example of R140: five bits, then a one. -/
theorem test_edge_append :
    let s := { edgeState .waitingForLowOne with
      dec := ⟨.waitingForLowOne, 1000⟩, ring := ⟨0, 0, State.reset.ring.slots.setFrame 0 ⟨5, 0⟩⟩ }
    look (exec (.edge 1600) s) (fun u => (u.dec, u.ring.slots.frame 0)) = some (⟨.waitingForHigh, 1600⟩, ⟨6, 0x20⟩) := by
  decide

/-- L2.2, the rows 501 and 5001, in every state: the next state, `size[0]` and `wr`. -/
theorem test_edge_table :
    (([DecState.waitingForSync, .waitingForLowSync, .waitingForHigh, .waitingForLowZero, .waitingForLowOne].map fun d =>
      [501, 5001].map fun t => look (exec (.edge t) (edgeState d)) fun u => (u.dec.state, (u.ring.slots.frame 0).size, u.ring.wr))
    = [[some (.waitingForSync, 3, 0), some (.waitingForLowSync, 3, 1)],
       [some (.waitingForHigh, 3, 0), some (.waitingForLowSync, 3, 1)],
       [some (.waitingForLowZero, 3, 0), some (.waitingForLowSync, 3, 1)],
       [some (.waitingForSync, 3, 0), some (.waitingForLowSync, 3, 1)],
       [some (.waitingForHigh, 4, 0), some (.waitingForLowSync, 3, 1)]]) := by decide

/-- R102's example, and an empty ring. -/
theorem test_rdAcquire : look (exec .rdAcquire readState) (·.resp) = some 0x401
    ∧ look (exec .rdAcquire State.reset) (·.resp) = some 0 := by decide

/-- R103: below the size the stored bit, beyond it 0 although the stale bit there is 1. -/
theorem test_rdBit : look (exec (.rdBit 0 1) readState) (·.resp) = some 1
    ∧ look (exec (.rdBit 0 4) readState) (·.resp) = some 0 ∧ look (exec (.rdBit 0 64) readState) (·.resp) = some 0 := by
  decide

/-- R201, R202: the fault of a read of a slot that is not the head, with its command word. -/
theorem test_rdBit_fault : look (exec (.rdBit 1 0) readState) (·.fault) = some [⟨.consumerProtocol, 0x13⟩] := by decide

/-- R104's example, and word 1 of a 64-bit frame. -/
theorem test_rdWord : look (exec (.rdWord 0 0) readState) (·.resp) = some 0x0123456789ABCDEF
    ∧ look (exec (.rdWord 0 1) readState) (·.resp) = some 0 := by decide

/-- L1.2: a release of the head slot. -/
theorem test_rdRelease : look (exec (.rdRelease 0) readState)
    (fun u => (u.ring.rd, u.ring.wr, (u.ring.slots.frame 0).size, u.fault)) = some (1, 1, 0, []) := by decide

/-- L1.2: from reset, RD_RELEASE 7 is a no-op; R105: the write slot, while it holds bits, is a fault. -/
theorem test_rdRelease_other : look (exec (.rdRelease 7) State.reset) (fun u => (u.ring.rd, u.fault)) = some (0, [])
    ∧ look (exec (.rdRelease 1) readState) (fun u => (u.ring.rd, u.fault)) = some (0, [⟨.consumerProtocol, 0x15⟩]) := by
  decide

/-- R170's example, and a repeat count of 0. -/
theorem test_txStart : look (exec (.txStart 5 2) State.reset) (·.enc) = some ⟨true, false, 5, 2, 0, .high⟩
    ∧ look (exec (.txStart 0xA5 0) State.reset) (·.enc) = some Encoder.atReset := by decide

/-- L2.5: a second TX_START is TX_BUSY. -/
theorem test_txStart_busy : look (exec (.txStart 3 2) (txState 3 2 0 .high)) (fun u => (u.enc, u.fault))
    = some (⟨true, false, 3, 2, 0, .high⟩, [⟨.txBusy, 0x000000000000000300020006⟩]) := by decide

/-- L2.6: the rows "TX busy, pin high" and "P4 end" of the table. -/
theorem test_status : look (exec .status { State.reset with enc := ⟨true, true, 3, 2, 0, .low⟩ }) (·.resp) = some 0x600
    ∧ look (exec .status { State.reset with
        dec := ⟨.waitingForHigh, 17400⟩, ring := ⟨1, 1, State.reset.ring.slots.setFrame 1 ⟨3, 3⟩⟩ }) (·.resp)
      = some 0x1849 := by decide

/-- L2.5: a data symbol's high segment. -/
theorem test_txStep_high : look (step (given (txState 3 2 1 .high) [.txStep])) (fun u => (u.enc, u.trace))
    = some (⟨true, true, 3, 2, 1, .low⟩, [⟨true, 200⟩]) := by decide

/-- L2.5: the last low segment of a repeat, and of the call. -/
theorem test_txStep_end : look (step (given (txState 3 2 64 .low) [.txStep])) (fun u => (u.enc, u.trace))
      = some (⟨true, false, 3, 1, 0, .high⟩, [⟨false, 200⟩])
    ∧ look (step (given (txState 3 1 64 .low) [.txStep])) (fun u => (u.enc, u.trace))
      = some (⟨false, false, 3, 0, 0, .high⟩, [⟨false, 200⟩]) := by decide

/-- R83: TXRUN stays while the sequencer is busy, and is consumed once it is idle. -/
theorem test_txRun : look (step (given (txState 3 1 64 .low) [.txRun, .txStep])) (fun u => (u.schedule, u.trace, u.enc.busy))
      = some ([.txRun, .txStep], [⟨false, 200⟩], false)
    ∧ nextOf (step (given readState [.txRun])) = some readState := by decide

/-- P5: an illegal word sets `refused`. -/
theorem test_illegal : look (step (given State.reset [.command .consumer 8])) (fun u => (u.refused, u.fault))
    = some (true, []) := by decide

/-- R231: a reset during a transmission. -/
theorem test_reset : look (step (given (txState 3 2 1 .low) [.reset 9 (Vector.replicate 8 1)]))
    (fun u => (u.enc, u.dec, u.ring.slots.frame 3)) = some (Encoder.atReset, ⟨.waitingForSync, 9⟩, ⟨0, 1⟩) := by decide

/-- The machine after reset runs the word that the host places. -/
theorem test_withFetchWord : look (step (State.reset.withFetchWord 96 0x000000000000145000000001)) (·.dec)
    = some ⟨.waitingForLowSync, 5200⟩ := by decide

/-! ### Assembly (R82, R83) -/

theorem test_parse : parseProgram "; a comment\nTX_START 0x0123_4567, 2 ; two\n.t0 0\n DUR 5_200\nTXRUN\n".toList
    = some [.command (.txStart 0x01234567 2), .t0 0, .dur 5200, .txRun] := by decide

theorem test_parse_error : parseProgram "EDGE".toList = none ∧ parseProgram "RD_BIT 1".toList = none
    ∧ parseProgram "EDGE 0x1g".toList = none := by decide

/-- The first two edges of P1. -/
theorem test_assemble_sync : assemble Config.defaultTM 0 [.sync]
    = some [.command .edge 0x000000000000145000000001, .command .edge 0x00000000000016A800000001] := by decide

theorem test_assemble_error : assemble Config.defaultTM 0 [.command (.edge 1), .command (.rdBit 0 128)] = none := by decide

/-! ### Witnesses: states and operands that meet the hypotheses of each obligation that has some -/

/-- A next state exists where the outcome computes to one. -/
theorem exists_next {o : Host.Outcome State Fault Refusal} (h : (nextOf o).isSome = true) : ∃ t, o = .next t := by
  cases o <;> simp_all [nextOf]

theorem witness_ResetInputGivesResetStateAndKeepsTM :
    (given readState [.reset 77 (Vector.replicate 8 1), .txStep]).schedule
      = .reset 77 (Vector.replicate 8 1) :: [.txStep] := rfl

theorem witness_EveryStepKeepsInvariant : (given readState [.command .edge 0x000000000000177000000001]).Inv
    ∧ ∃ t, step (given readState [.command .edge 0x000000000000177000000001]) = .next t :=
  ⟨given_inv readState_inv _, exists_next (by decide)⟩

theorem witness_EveryStepKeepsSizesInRange : fiveState.ring.slots.wf = true
    ∧ ∃ t, step (given fiveState [.command .consumer 5]) = .next t := ⟨by decide, exists_next (by decide)⟩

theorem witness_DecodeOfEncodeIsTheCommand : (Instr.edge 0xFFFFFFFF).wellFormed = true
    ∧ (Instr.rdBit 7 127).wellFormed = true ∧ (Instr.txStart 0xFFFFFFFFFFFFFFFF 255).wellFormed = true := by decide

theorem witness_EncodeOfDecodeIsTheWord : decode 0x000000000000000000007F73#96 = .command (.rdBit 7 127) := by decide

theorem witness_LegalWordsMatchExactlyOneRow :
    (∃ r ∈ commandTable, 0x75#96 &&& r.mask = r.matchBits) ∧ decode 0x75#96 = .command (.rdRelease 7) := by decide

theorem witness_ReservedOpsAreIllegal : opField 0x10#96 = 0#4 ∧ 8#4 ≤ opField 0x8#96
    ∧ 8#4 ≤ opField 0xFFFFFFFFFFFFFFFFFFFFFFFF#96 := by decide

theorem witness_StepRunsTheDecodedCommand : decode 5#96 = .command (.rdRelease 0)
    ∧ Port.consumer.mayIssue (.rdRelease 0) = true ∧ Port.tx.mayIssue (.rdRelease 0) = false
    ∧ (given readState [.command .consumer 5]).schedule = .command .consumer 5 :: []
    ∧ (given readState [.command .tx 5]).schedule = .command .tx 5 :: [] := by decide

theorem witness_IllegalWordOnlySetsRefused :
    (given readState [.command .edge 0x10000000000000001]).schedule = .command .edge 0x10000000000000001 :: []
    ∧ (∀ r ∈ commandTable, 0x10000000000000001#96 &&& r.mask ≠ r.matchBits)
    ∧ (∀ r ∈ commandTable, 8#96 &&& r.mask ≠ r.matchBits) := by decide

theorem witness_IdleBlockHoldsItsState : readState.schedule = [] ∧ readState.enc.busy = false := by decide

theorem witness_CommandsAlwaysComplete : step (given readState [.txStep]) = .refused .txSequencerNotEnabled
    ∧ step (given readState [.command .tx 5]) = .refused (.foreignCommand .tx) := ⟨rfl, rfl⟩

theorem witness_NoStepChangesTM : ∃ t, step (given readState [.reset 0 (Vector.replicate 8 0)]) = .next t :=
  exists_next (by decide)

theorem witness_RecordsOnlyGrow :
    let s := given { readState with refused := true, fault := [⟨.consumerProtocol, 0x13⟩] } [.command .consumer 0x13]
    (∃ t, step s = .next t) ∧ s.resetPending = false ∧ s.refused = true ∧ s.good = false :=
  ⟨exists_next (by decide), by decide, by decide, by decide⟩

/-- The bounds 7 and 8 are L2.1's; the second window ends at the largest value, the third is inverted. -/
theorem witness_WindowTestIsStrict : (8#32).toNat ≤ (7#32).toNat + 1
    ∧ (0xFFFFFFFF#32).toNat ≤ (0xFFFFFFFE#32).toNat + 1 ∧ (0#32).toNat ≤ (5#32).toNat + 1 := by decide

theorem witness_DeriveBoundsIsExactOrRejected : deriveBounds 200 50 150 = some (150, 350)
    ∧ deriveBounds 5 5 0xFFFFFFFA = some (0, 0xFFFFFFFF) ∧ deriveBounds 100 101 0 = none
    ∧ deriveBounds 5 5 0xFFFFFFFB = none := by decide

theorem witness_EdgeOnFullRing : fullState.ring.rd = fullState.ring.wr + 1 := by decide

theorem witness_FullRingDropsWholeBursts : fullState.ring.full = true := by decide

/-- At both ends of sync.high, with bits in the write slot and without. -/
theorem witness_EdgeOnSyncHigh : sixState.ring.rd ≠ sixState.ring.wr + 1 ∧ readState.ring.rd ≠ readState.ring.wr + 1
    ∧ inWin (5001 - sixState.dec.lastEdge) sixState.tm.sync.high = true
    ∧ inWin (6399 - readState.dec.lastEdge) readState.tm.sync.high = true := by decide

/-- One duration for each row of the table of R142, at the ends of the windows. -/
theorem witness_EdgeStateTable : (∀ d, (edgeState d).ring.rd ≠ (edgeState d).ring.wr + 1 ∧ (edgeState d).dec = ⟨d, 0⟩)
    ∧ ([150, 151, 349, 350, 500, 501, 699, 700].all fun d : U32 => !inWin (d - 0) Config.defaultTM.sync.high) = true
    ∧ inWin 501 Config.defaultTM.sync.low = true ∧ inWin 500 Config.defaultTM.sync.low = false
    ∧ inWin 699 Config.defaultTM.zero.high = true ∧ inWin 151 Config.defaultTM.zero.high = false
    ∧ inWin 151 Config.defaultTM.one.high = true ∧ inWin 350 Config.defaultTM.zero.high = false
    ∧ inWin 350 Config.defaultTM.one.high = false
    ∧ inWin 349 Config.defaultTM.zero.low = true ∧ inWin 150 Config.defaultTM.zero.low = false
    ∧ inWin 501 Config.defaultTM.one.low = true ∧ inWin 700 Config.defaultTM.one.low = false :=
  ⟨fun d => ⟨by show (0 : SlotIdx) ≠ 0 + 1; decide, rfl⟩, by decide, by decide, by decide, by decide, by decide,
    by decide, by decide, by decide, by decide, by decide, by decide, by decide⟩

theorem witness_AppendWritesAtTheSize :
    (((State.reset.ring.slots.setFrame 2 ⟨127, 0⟩).frame 2).size.toNat < 128)
    ∧ 128 ≤ ((State.reset.ring.slots.setFrame 2 ⟨128, 0⟩).frame 2).size.toNat ∧ (1 : SlotIdx) ≠ 2 := by decide

theorem witness_EdgeDependsOnlyOnTheDifference : (∃ u, exec (.edge 1600) readState = .next u)
    ∧ ∃ v, exec (.edge (1600 + 0xFFFFFFFF))
        { readState with dec := ⟨readState.dec.state, readState.dec.lastEdge + 0xFFFFFFFF⟩ } = .next v :=
  ⟨exists_next (by decide), exists_next (by decide)⟩

theorem witness_SyncSymbolRelocksTheDecoder : sixState.Inv ∧ sixState.tm = Config.defaultTM ∧ sixState.ring.roomForBurst
    ∧ fiveState.Inv ∧ fiveState.ring.roomForBurst ∧ inWin 5001 sixState.tm.sync.high = true
    ∧ inWin 699 sixState.tm.sync.low = true :=
  ⟨sixState_inv, rfl, .inr (by decide), fiveState_inv, .inl (by decide), by decide, by decide⟩

theorem witness_AcquireAnswersTheHeadSlot : State.reset.ring.rd = State.reset.ring.wr
    ∧ readState.ring.rd ≠ readState.ring.wr := by decide

theorem witness_ReadBitOfTheHeadFrame : readState.ring.rd ≠ readState.ring.wr := by decide

theorem witness_ReadWordOfTheHeadFrame : fullState.ring.rd ≠ fullState.ring.wr := by decide

theorem witness_ReadBitAgreesWithReadWord : readState.ring.isHead 0 = true
    ∧ (1 : WordSel).val = (127 : BitIdx).val / 64 ∧ (0 : WordSel).val = (63 : BitIdx).val / 64
    ∧ (∃ u, exec (.rdBit 0 127) readState = .next u) ∧ ∃ v, exec (.rdWord 0 1) readState = .next v :=
  ⟨by decide, by decide, by decide, exists_next (by decide), exists_next (by decide)⟩

theorem witness_ValidFrameReadsAsItsValue : readState.ring.rd ≠ readState.ring.wr
    ∧ (readState.ring.slots.frame readState.ring.rd).isValid = true
    ∧ (∃ u, exec (.rdWord readState.ring.rd 0) readState = .next u)
    ∧ ∃ v, exec (.rdWord readState.ring.rd 1) readState = .next v :=
  ⟨by decide, by decide, exists_next (by decide), exists_next (by decide)⟩

/-- A slot of size 0, the head slot, the write slot with bits, and a slot with bits of an empty ring. -/
theorem witness_ReleaseOfASlot : (readState.ring.slots.frame 2).size = 0
    ∧ (readState.ring.slots.frame 0).size ≠ 0 ∧ readState.ring.rd ≠ readState.ring.wr ∧ 0 = readState.ring.rd
    ∧ (readState.ring.slots.frame 1).size ≠ 0 ∧ 1 ≠ readState.ring.rd
    ∧ ((edgeState .waitingForSync).ring.slots.frame 0).size ≠ 0
    ∧ (edgeState .waitingForSync).ring.rd = (edgeState .waitingForSync).ring.wr := by decide

theorem witness_ReleaseIsIdempotent : ∃ t, exec (.rdRelease 0) readState = .next t ∧ t.fault = readState.fault :=
  ⟨_, rfl, rfl⟩

theorem witness_ReadsOutsideTheProtocolAreRecorded : State.reset.ring.rd = State.reset.ring.wr
    ∧ 1 ≠ readState.ring.rd := by decide

theorem witness_FaultsExactlyUnderTheirConditions : consumerFaults readState (.rdWord 3 0) = true
    ∧ txFaults (txState 3 1 64 .low) (.txStart 0 0) = true
    ∧ consumerFaults readState (.rdRelease 0) = false ∧ txFaults readState (.rdRelease 0) = false
    ∧ (∃ t, exec (.rdWord 3 0) readState = .next t) ∧ (∃ t, exec (.txStart 0 0) (txState 3 1 64 .low) = .next t)
    ∧ ∃ t, exec (.rdRelease 0) readState = .next t :=
  ⟨by decide, by decide, by decide, by decide, exists_next (by decide), exists_next (by decide), exists_next (by decide)⟩

theorem witness_DutifulAgentsNeverFault : ∃ s t, s.consumerKeepsProtocol ∧ s.txCallerKeepsHold
    ∧ s.resetPending = false ∧ step s = .next t := by
  obtain ⟨t, ht⟩ := exists_next (o := step (given readState [.command .consumer 5])) (by decide)
  refine ⟨given readState [.command .consumer 5], t, ?_, ?_, by decide, ht⟩
  · intro p w rest i hs hd
    cases hs
    cases hd
    decide
  · intro w rest hs
    cases hs

theorem witness_EachSideWritesOnlyItsOwnState : (∃ t, exec (.rdRelease 0) readState = .next t)
    ∧ (∃ t, exec (.edge 1600) readState = .next t) ∧ (∃ t, exec (.txStart 5 2) readState = .next t)
    ∧ (∀ x, Instr.rdRelease 0 ≠ .edge x) ∧ (∀ x, Instr.edge 1600 ≠ .rdRelease x)
    ∧ (∀ c r, Instr.edge 1600 ≠ .txStart c r) ∧ (∀ x, Instr.txStart 5 2 ≠ .edge x)
    ∧ ∀ x, Instr.txStart 5 2 ≠ .rdRelease x := by
  refine ⟨exists_next (by decide), exists_next (by decide), exists_next (by decide), ?_, ?_, ?_, ?_, ?_⟩ <;>
    intros <;> simp

/-- A full ring; a sync-high with and without bits in the write slot; a bit that is appended. -/
theorem witness_EdgeRefinesAQueue : fullState.Inv ∧ readState.Inv ∧ sixState.Inv ∧ fullState.ring.full = true
    ∧ readState.ring.full = false ∧ inWin (6001 - readState.dec.lastEdge) readState.tm.sync.high = true
    ∧ sixState.ring.full = false ∧ inWin (5399 - sixState.dec.lastEdge) sixState.tm.sync.high = true
    ∧ inWin (1600 - readState.dec.lastEdge) readState.tm.sync.high = false
    ∧ (∃ u, exec (.edge 5200) fullState = .next u) ∧ (∃ u, exec (.edge 6001) readState = .next u)
    ∧ (∃ u, exec (.edge 5399) sixState = .next u) ∧ ∃ u, exec (.edge 1600) readState = .next u :=
  ⟨fullState_inv, readState_inv, sixState_inv, by decide, by decide, by decide, by decide, by decide, by decide,
    exists_next (by decide), exists_next (by decide), exists_next (by decide), exists_next (by decide)⟩

theorem witness_ConsumerWorksOnTheQueueHead : readState.Inv ∧ ∃ f fs, readState.ring.queue = f :: fs :=
  ⟨readState_inv, _, _, rfl⟩

theorem witness_QueueIsBounded : fullState.Inv := fullState_inv

/-- The next event releases another slot than the head, which is not a committed one. -/
theorem witness_CommittedFramesStayUntilReleased : ∃ s t, s.Inv ∧ s.ring.committed 0 = true ∧ s.resetPending = false
    ∧ (∀ p w rest, s.schedule = .command p w :: rest → decode w ≠ .command (.rdRelease s.ring.rd))
    ∧ step s = .next t := by
  obtain ⟨t, ht⟩ := exists_next (o := step (given readState [.command .consumer 0x15])) (by decide)
  refine ⟨given readState [.command .consumer 0x15], t, given_inv readState_inv _, by decide, by decide, ?_, ht⟩
  intro p w rest hs
  cases hs
  decide

/-- Two states that differ in every bit at or beyond the sizes. -/
theorem witness_StaleBitsAreNeverObservable : ∃ s u : State, s.SameVisible u ∧ s ≠ u := by
  refine ⟨readState, { readState with
    ring := ⟨0, 1, (State.reset.ring.slots.setFrame 0 ⟨64, 0x0123456789ABCDEF⟩).setFrame 1 ⟨3, 5⟩⟩ }, ⟨rfl, rfl, rfl, ?_⟩, ?_⟩
  · unfold Frame.SameVisible
    decide
  · decide

theorem witness_TxStartOutcomes : State.reset.enc.busy = false ∧ (1 : U8) ≠ 0 ∧ (255 : U8) ≠ 0
    ∧ (txState 3 1 64 .low).enc.busy = true := by decide

/-- Each kind of schedule, idle and busy; and each clause of a segment: the high phase of the sync symbol, the low phase
below and at position 64. -/
theorem witness_TxSegmentStep : (given State.reset [.txStep]).schedule = .txStep :: []
    ∧ (given State.reset [.txRun]).schedule = .txRun :: [] ∧ State.reset.enc.busy = false
    ∧ (given (txState 3 2 0 .high) [.txStep]).schedule = .txStep :: []
    ∧ (given (txState 3 2 0 .high) [.txRun, .txStep]).schedule = .txRun :: [.txStep] ∧ (txState 3 2 0 .high).schedule = []
    ∧ (txState 3 2 0 .high).enc.busy = true ∧ (txState 3 2 0 .high).enc.phase = .high
    ∧ (txState 3 2 63 .low).enc.busy = true ∧ (txState 3 2 63 .low).enc.phase = .low
    ∧ (txState 3 2 63 .low).enc.pos.toNat < 64
    ∧ (txState 3 1 64 .low).enc.busy = true ∧ (txState 3 1 64 .low).enc.phase = .low
    ∧ 64 ≤ (txState 3 1 64 .low).enc.pos.toNat := by decide

/-- The last segment of a call, under TXSTEP, under TXRUN and with no event pending; and a step that adds none. -/
theorem witness_EverySegmentIsAPinTransition :
    (∀ es, es = [Event.txStep] ∨ es = [.txRun] ∨ es = [] →
      (given (txState 3 1 64 .low) es).Inv ∧ (given (txState 3 1 64 .low) es).resetPending = false
      ∧ ∃ t, step (given (txState 3 1 64 .low) es) = .next t ∧ t.trace ≠ (given (txState 3 1 64 .low) es).trace
        ∧ t.enc.busy = false)
    ∧ (given readState [.command .consumer 5]).Inv ∧ (given readState [.command .consumer 5]).resetPending = false
    ∧ ∃ t, step (given readState [.command .consumer 5]) = .next t ∧ t.trace = readState.trace := by
  refine ⟨?_, given_inv readState_inv _, by decide, ⟨_, rfl, by decide⟩⟩
  rintro es (rfl | rfl | rfl) <;>
    exact ⟨given_inv txState_inv _, by decide, _, rfl, by decide, by decide⟩

theorem witness_TransmissionEmitsExactlyItsSegments :
    let s := given readState [.command .tx (encode (.txStart 0x0123456789ABCDEF 255))]
    s.enc.busy = false ∧ (255 : U8) ≠ 0 ∧ s.schedule = [.command .tx (encode (.txStart 0x0123456789ABCDEF 255))] := by
  decide

theorem witness_SegmentStepCommutesWithReception : Instr.edge 1600 ≠ .status
    ∧ (∀ c r, Instr.edge 1600 ≠ .txStart c r) ∧ ∃ t, exec (.edge 1600) (txState 3 1 64 .low) = .next t :=
  ⟨by decide, by intros; simp, exists_next (by decide)⟩

theorem edgesFrom_isEdge (l : U32) (ds : List U32) : (edgesFrom l ds).filter Instr.isEdge = edgesFrom l ds := by
  simp [edgesFrom, List.filter_map, Function.comp_def, Instr.isEdge]

/-- With both kinds of room, and a consumer that releases its frame while the burst arrives. -/
theorem witness_CleanBurstDecodesItsCode : sixState.Inv ∧ sixState.tm = Config.defaultTM ∧ sixState.ring.roomForBurst
    ∧ fiveState.Inv ∧ fiveState.ring.roomForBurst ∧ inWin 5399 Config.defaultTM.sync.high = true
    ∧ ∃ is : List Instr, is.filter Instr.isEdge
        = edgesFrom sixState.dec.lastEdge (code64Durations Config.defaultTM 0x0123456789ABCDEF) :=
  ⟨sixState_inv, rfl, .inr (by decide), fiveState_inv, .inl (by decide), by decide,
    .rdAcquire :: .rdRelease 0 :: edgesFrom sixState.dec.lastEdge (code64Durations Config.defaultTM 0x0123456789ABCDEF),
    by simp [Instr.isEdge, edgesFrom_isEdge]⟩

theorem witness_RoundTripReturnsTheCode : ∃ s t, s.Inv ∧ s.tm = Config.defaultTM ∧ s.enc.busy = false
    ∧ s.ring.rd = s.ring.wr ∧ (s.ring.slots.frame s.ring.wr).size = 0#8
    ∧ s.schedule = [.command .tx (encode (.txStart 0x0123456789ABCDEF 1))]
    ∧ Host.Core.run Sys2Proof.core 131 s = .next t := by
  let s := given State.reset [.command .tx (encode (.txStart 0x0123456789ABCDEF 1))]
  have hs : State.reset.Inv :=
    ⟨⟨by decide, by decide, by decide, by decide, by decide, by decide⟩, ⟨by decide, by decide, by decide⟩⟩
  have h1 : ∃ t, step s = .next t ∧ t.schedule = [] := ⟨_, rfl, rfl⟩
  obtain ⟨u, hu, hsch⟩ := h1
  obtain ⟨t, ht⟩ := run_of_no_event 130 u hsch
  refine ⟨s, t, given_inv hs _, rfl, rfl, rfl, by decide, rfl, ?_⟩
  rw [run_succ 130 hu]
  exact ht

theorem witness_LoopbackDeliversAllButTheLastRepeat : fiveState.Inv ∧ fiveState.tm = Config.defaultTM
    ∧ fiveState.ring.buffered + 1 ≤ 6 ∧ readState.Inv ∧ readState.tm = Config.defaultTM
    ∧ readState.ring.buffered + 5 ≤ 6 := ⟨fiveState_inv, rfl, by decide, readState_inv, rfl, by decide⟩

theorem witness_Code64AssemblesTo130Edges : 2 ^ 64 - 1 < 2 ^ 64 := by decide

theorem witness_OperandsOutOfRangeAreAssemblyErrors : AsmCommand.wellFormed (.rdBit 0 128) = false
    ∧ AsmCommand.wellFormed (.txStart (2 ^ 64) 0) = false ∧ AsmCommand.wellFormed (.rdBit 7 127) = true := by decide

end Sys2Proof.Tests
end

namespace Sys2Proof.Machine

/-! PROOFS of the statements on the state (spec 10_state.md): the invariant, the stale bits, the size registers, the
records, the packed ring index, the owners of each part of the state, the bounds of the queue, reset and the ring's
conditions. -/

/-! ### What a command and a step can do -/

/-- What a command that answers a next state did: EDGE, the release of the head slot and the start of a transmission write
the block; every other command only answers a response or records a fault. -/
theorem exec_cases {i : Instr} {s t : State} (h : exec i s = .next t) :
    (∃ x, i = .edge x ∧ t = ((s.withDec (edgeEffect s.tm s.dec s.ring x).1).withRing
        (edgeEffect s.tm s.dec s.ring x).2).respond 0)
    ∨ (i = .rdRelease s.ring.rd ∧ s.ring.rd ≠ s.ring.wr
        ∧ t = (s.withRing (s.ring.releaseHead s.ring.rd)).respond 0)
    ∨ (∃ c r, i = .txStart c r ∧ s.enc.busy = false ∧ r ≠ 0 ∧ t = (s.withEnc (s.enc.start c r)).respond 0)
    ∨ (∃ x, t = s.respond x)
    ∨ (∃ c, t = s.raiseFault c i) := by
  cases i with
  | edge x => rw [exec_edge] at h; cases h; exact .inl ⟨x, rfl, rfl⟩
  | rdAcquire => rw [exec_rdAcquire] at h; cases h; exact .inr (.inr (.inr (.inl ⟨_, rfl⟩)))
  | rdBit k j =>
    rw [exec_rdBit] at h; cases h; right; right; right
    split
    · exact .inl ⟨_, rfl⟩
    · exact .inr ⟨_, rfl⟩
  | rdWord k w =>
    rw [exec_rdWord] at h; cases h; right; right; right
    split
    · exact .inl ⟨_, rfl⟩
    · exact .inr ⟨_, rfl⟩
  | rdRelease k =>
    rw [exec_rdRelease] at h; cases h; right
    split
    · exact .inr (.inr (.inl ⟨_, rfl⟩))
    · split
      next hk =>
        obtain ⟨hne, rfl⟩ := (s.ring.isHead_iff k).mp hk
        exact .inl ⟨rfl, hne, rfl⟩
      next => exact .inr (.inr (.inr ⟨_, rfl⟩))
  | txStart c r =>
    rw [exec_txStart] at h; cases h; right; right
    split
    · exact .inr (.inr ⟨_, rfl⟩)
    next hb =>
      split
      · exact .inr (.inl ⟨_, rfl⟩)
      next hr => exact .inl ⟨c, r, rfl, by simpa using hb, hr, rfl⟩
  | status => rw [exec_status] at h; cases h; exact .inr (.inr (.inr (.inl ⟨_, rfl⟩)))

/-- Every change of the ring by a command. -/
theorem exec_ring_cases {i : Instr} {s t : State} (h : exec i s = .next t) :
    (∃ x, i = .edge x ∧ t.ring = (edgeEffect s.tm s.dec s.ring x).2)
    ∨ (i = .rdRelease s.ring.rd ∧ s.ring.rd ≠ s.ring.wr ∧ t.ring = s.ring.releaseHead s.ring.rd)
    ∨ t.ring = s.ring := by
  rcases exec_cases h with ⟨x, hi, rfl⟩ | ⟨hi, hne, rfl⟩ | ⟨c, r, -, -, -, rfl⟩ | ⟨x, rfl⟩ | ⟨c, rfl⟩
  · exact .inl ⟨x, hi, rfl⟩
  · exact .inr (.inl ⟨hi, hne, rfl⟩)
  · exact .inr (.inr rfl)
  · exact .inr (.inr rfl)
  · exact .inr (.inr rfl)

/-- Every change of a TX register by a command. -/
theorem exec_enc_cases {i : Instr} {s t : State} (h : exec i s = .next t) :
    (∃ c r, i = .txStart c r ∧ s.enc.busy = false ∧ r ≠ 0 ∧ t.enc = s.enc.start c r) ∨ t.enc = s.enc := by
  rcases exec_cases h with ⟨x, -, rfl⟩ | ⟨-, -, rfl⟩ | ⟨c, r, hi, hb, hr, rfl⟩ | ⟨x, rfl⟩ | ⟨c, rfl⟩
  · exact .inr rfl
  · exact .inr rfl
  · exact .inl ⟨c, r, hi, hb, hr, rfl⟩
  · exact .inr rfl
  · exact .inr rfl

theorem exec_dec_of_not_edge {i : Instr} {s t : State} (h : exec i s = .next t) (hi : ∀ x, i ≠ .edge x) :
    t.dec = s.dec := by
  rcases exec_cases h with ⟨x, hx, -⟩ | ⟨-, -, rfl⟩ | ⟨c, r, -, -, -, rfl⟩ | ⟨x, rfl⟩ | ⟨c, rfl⟩
  · exact absurd hx (hi x)
  · rfl
  · rfl
  · rfl
  · rfl

theorem step_of_command {s : State} {p : Port} {w : CmdWord} {rest : List Event} {i : Instr}
    (h : s.schedule = .command p w :: rest) (hd : decode w = .command i) :
    step s = if p.mayIssue i then exec i (s.accept p rest) else .refused (.foreignCommand p) := by
  simp [step, h, hd]

theorem step_of_illegal {s : State} {p : Port} {w : CmdWord} {rest : List Event} {e : DecodeError}
    (h : s.schedule = .command p w :: rest) (hd : decode w = .illegal e) :
    step s = .next (s.withSchedule rest).refuseIllegal := by
  simp [step, h, hd]

theorem step_of_reset {s : State} {le : U32} {bits : Vector SlotBits 8} {rest : List Event}
    (h : s.schedule = .reset le bits :: rest) : step s = .next ((s.withSchedule rest).applyReset le bits) := by
  simp [step, h]

/-- Every change of the ring by a step. -/
theorem step_ring_cases {s t : State} (h : step s = .next t) :
    (∃ x, t.ring = (edgeEffect s.tm s.dec s.ring x).2)
    ∨ (s.ring.rd ≠ s.ring.wr ∧ t.ring = s.ring.releaseHead s.ring.rd)
    ∨ (∃ le bits, t.ring = (State.atReset s.tm le bits).ring)
    ∨ t.ring = s.ring := by
  rcases step_cases h with ⟨-, rfl⟩ | ⟨p, w, rest, e, -, -, rfl⟩ | ⟨p, w, rest, i, -, -, -, hx⟩ | ⟨rest, -, -, rfl⟩
    | ⟨rest, -, rfl⟩ | ⟨le, bits, rest, -, rfl⟩
  · right; right; right; split <;> rfl
  · exact .inr (.inr (.inr rfl))
  · rcases exec_ring_cases hx with ⟨x, -, hr⟩ | ⟨-, hne, hr⟩ | hr
    · exact .inl ⟨x, hr⟩
    · exact .inr (.inl ⟨hne, hr⟩)
    · exact .inr (.inr (.inr hr))
  · exact .inr (.inr (.inr rfl))
  · right; right; right; split <;> rfl
  · exact .inr (.inr (.inl ⟨le, bits, rfl⟩))

/-- Every change of a TX register by a step: a start from idle, a segment step while busy, or reset. -/
theorem step_enc_cases {s t : State} (h : step s = .next t) :
    (∃ c r, s.enc.busy = false ∧ r ≠ 0 ∧ t.enc = s.enc.start c r)
    ∨ (s.enc.busy = true ∧ t.enc = s.enc.advance)
    ∨ t.enc = .atReset
    ∨ t.enc = s.enc := by
  rcases step_cases h with ⟨-, rfl⟩ | ⟨p, w, rest, e, -, -, rfl⟩ | ⟨p, w, rest, i, -, -, -, hx⟩ | ⟨rest, -, hb, rfl⟩
    | ⟨rest, -, rfl⟩ | ⟨le, bits, rest, -, rfl⟩
  · split
    next hb => exact .inr (.inl ⟨hb, rfl⟩)
    next => exact .inr (.inr (.inr rfl))
  · exact .inr (.inr (.inr rfl))
  · rcases exec_enc_cases hx with ⟨c, r, -, hb, hr, he⟩ | he
    · exact .inl ⟨c, r, hb, hr, he⟩
    · exact .inr (.inr (.inr he))
  · exact .inr (.inl ⟨hb, rfl⟩)
  · split
    next hb => exact .inr (.inl ⟨hb, rfl⟩)
    next => exact .inr (.inr (.inr rfl))
  · exact .inr (.inr (.inl rfl))

/-! ### The invariant -/

theorem Ring.Inv.after_edge {r : Ring} (h : r.Inv) (tm : TimingModel) (dec : Decoder) (x : U32) :
    (edgeEffect tm dec r x).2.Inv := by
  rcases edgeEffect_cases tm dec r x with ⟨-, he⟩ | ⟨hf, -, he⟩ | ⟨hf, -, he⟩ <;> rw [he]
  · exact h
  · exact h.commitWriteSlot hf
  · exact h.append hf _

theorem State.atReset_size (tm : TimingModel) (le : U32) (bits : Vector SlotBits 8) (k : SlotIdx) :
    ((State.atReset tm le bits).ring.slots.frame k).size = 0#8 := by
  rw [State.atReset_frame]
  rfl

/-- After reset no slot is committed and every slot is empty. -/
theorem Ring.Inv.atReset (tm : TimingModel) (le : U32) (bits : Vector SlotBits 8) : (State.atReset tm le bits).ring.Inv := by
  have hnone (k : SlotIdx) : (State.atReset tm le bits).ring.committed k = false := by
    simp [Ring.committed_eq_false_iff]
  apply Ring.Inv.intro
  · intro k hk
    rw [hnone k] at hk
    cases hk
  · exact fun k _ _ => State.atReset_size tm le bits k
  · exact fun _ => State.atReset_size tm le bits _
  · rw [State.atReset_size]; decide

theorem Encoder.Inv.atReset : Encoder.atReset.Inv where
  idle := by decide
  busy := by decide
  pin := by decide

/-- A start from idle: the phase was HIGH, so the pin is low and may stay. -/
theorem Encoder.Inv.start {e : Encoder} (h : e.Inv) (hb : e.busy = false) (c : U64) {r : U8} (hr : r ≠ 0) :
    (e.start c r).Inv := by
  obtain ⟨-, -, hphase⟩ := h.idle hb
  have hpin : e.pin = false := by simpa [hphase] using h.pin
  constructor
  · intro hidle
    cases hidle
  · intro _
    have : r.toNat ≠ 0 := fun h0 => hr (BitVec.eq_of_toNat_eq h0)
    exact ⟨Nat.pos_of_ne_zero this, Nat.zero_le 64⟩
  · simp [Encoder.start, hpin]

/-- A segment step while busy, in the four cases of R172: the high phase, a low phase before the last position, the end of
a repeat and the end of the call. -/
theorem Encoder.Inv.advance {e : Encoder} (h : e.Inv) (hb : e.busy = true) : e.advance.Inv := by
  obtain ⟨hrep, hpos⟩ := h.busy hb
  cases hphase : e.phase with
  | high =>
    rw [e.advance_of_high hphase]
    exact ⟨by simp [hb], fun _ => ⟨hrep, hpos⟩, by simp⟩
  | low =>
    by_cases hp : e.pos.toNat < 64
    · rw [e.advance_of_low hphase hp]
      exact ⟨by simp [hb], fun _ => ⟨hrep, by simp only; bv_omega⟩, by simp⟩
    · have hp' : 64 ≤ e.pos.toNat := Nat.not_lt.mp hp
      by_cases hlast : e.repLeft = 1
      · rw [e.advance_of_last hphase hp' hlast]
        exact ⟨by simp, by simp, by simp⟩
      · rw [e.advance_of_end hphase hp' hlast]
        exact ⟨by simp [hb], fun _ => ⟨by simp only; bv_omega, Nat.zero_le 64⟩, by simp⟩

theorem State.Inv.atReset (tm : TimingModel) (le : U32) (bits : Vector SlotBits 8) : (State.atReset tm le bits).Inv :=
  ⟨Ring.Inv.atReset tm le bits, Encoder.Inv.atReset⟩

theorem Ring.Inv.after_step {s t : State} (h : s.ring.Inv) (hs : step s = .next t) : t.ring.Inv := by
  rcases step_ring_cases hs with ⟨x, hr⟩ | ⟨hne, hr⟩ | ⟨le, bits, hr⟩ | hr <;> rw [hr]
  · exact h.after_edge _ _ x
  · exact h.releaseHead hne
  · exact Ring.Inv.atReset _ le bits
  · exact h

theorem Encoder.Inv.after_step {s t : State} (h : s.enc.Inv) (hs : step s = .next t) : t.enc.Inv := by
  rcases step_enc_cases hs with ⟨c, r, hb, hr, he⟩ | ⟨hb, he⟩ | he | he <;> rw [he]
  · exact h.start hb c hr
  · exact h.advance hb
  · exact Encoder.Inv.atReset
  · exact h

theorem State.Inv.after_step {s t : State} (h : s.Inv) (hs : step s = .next t) : t.Inv :=
  ⟨h.ring.after_step hs, h.enc.after_step hs⟩

/-- Settles O4: each step changes the ring and the TX registers by one of their operations, and each keeps its half of the
invariant. -/
theorem everyStepKeepsInvariant : Obligations.EveryStepKeepsInvariant :=
  fun _ _ h hs => h.after_step hs

/-! ### Stale bits are never observable -/

/-- Two rings that differ at most in bits at or beyond the size of their slot: the ring's part of `State.SameVisible`
(`State.sameVisible_iff`). -/
structure Ring.SameVisible (r q : Ring) : Prop where
  rd : q.rd = r.rd
  wr : q.wr = r.wr
  slots : ∀ k, (r.slots.frame k).SameVisible (q.slots.frame k)

theorem Frame.SameVisible.refl (f : Frame) : f.SameVisible f := ⟨rfl, fun _ _ => rfl⟩

theorem Frame.SameVisible.clear (f g : Frame) : f.clear.SameVisible g.clear :=
  ⟨rfl, fun _ hi => absurd hi (Nat.not_lt_zero _)⟩

theorem Ring.SameVisible.refl (r : Ring) : r.SameVisible r := ⟨rfl, rfl, fun _ => Frame.SameVisible.refl _⟩

/-- Related states are a state and itself with a related ring. -/
theorem State.sameVisible_iff (s u : State) : s.SameVisible u ↔ ∃ q, s.ring.SameVisible q ∧ u = s.withRing q := by
  constructor
  · rintro ⟨hrest, hrd, hwr, hslots⟩
    refine ⟨u.ring, ⟨hrd, hwr, hslots⟩, ?_⟩
    rw [← hrest]
    rfl
  · rintro ⟨q, ⟨hrd, hwr, hslots⟩, rfl⟩
    exact ⟨rfl, hrd, hwr, hslots⟩

theorem State.SameVisible.refl (s : State) : s.SameVisible s :=
  (s.sameVisible_iff s).mpr ⟨s.ring, Ring.SameVisible.refl _, rfl⟩

section frames

variable {f g : Frame} (h : f.SameVisible g)
include h

theorem Frame.SameVisible.visibleBit (i : Nat) : g.visibleBit i = f.visibleBit i := by
  obtain ⟨hsize, hread⟩ := h
  unfold Frame.visibleBit
  rw [← hsize]
  by_cases hi : i < f.size.toNat
  · rw [hread i hi]
  · simp [hi]

theorem Frame.SameVisible.visibleWord (w : WordSel) : g.visibleWord w = f.visibleWord w := by
  apply BitVec.eq_of_getLsbD_eq
  intro j hj
  rw [f.visibleWord_getLsbD w j hj, g.visibleWord_getLsbD w j hj]
  exact h.visibleBit (64 * w.val + j)

/-- The appended bit goes to the position of the size, which is the one position that becomes visible. -/
theorem Frame.SameVisible.append (b : Bool) : (f.append b).SameVisible (g.append b) := by
  obtain ⟨hsize, hread⟩ := h
  by_cases hlt : f.size.toNat < 128
  · have hlt' : g.size.toNat < 128 := hsize ▸ hlt
    have hsize' : (f.append b).size = (g.append b).size := by
      apply BitVec.eq_of_toNat_eq
      rw [f.append_size b hlt, g.append_size b hlt', hsize]
    refine ⟨hsize', fun i hi => ?_⟩
    rw [f.append_size b hlt] at hi
    rw [f.append_read b i hlt, g.append_read b i hlt', ← hsize]
    split
    next => rfl
    next hne => exact hread i (by omega)
  · have hge : 128 ≤ f.size.toNat := Nat.not_lt.mp hlt
    rw [f.append_of_ge b hge, g.append_of_ge b (hsize ▸ hge)]
    exact ⟨hsize, hread⟩

end frames

section rings

variable {r q : Ring} (h : r.SameVisible q)
include h

theorem Ring.SameVisible.isHead (k : SlotIdx) : q.isHead k = r.isHead k := by rw [Ring.isHead, h.rd, h.wr, Ring.isHead]

theorem Ring.SameVisible.full : q.full = r.full := by rw [Ring.full, h.rd, h.wr, Ring.full]

theorem Ring.SameVisible.index : q.index = r.index := by rw [Ring.index, h.rd, h.wr, Ring.index]

theorem Ring.SameVisible.size (k : SlotIdx) : (q.slots.frame k).size = (r.slots.frame k).size := (h.slots k).1.symm

theorem Ring.SameVisible.commitWriteSlot (k : SlotIdx) : (r.commitWriteSlot k).SameVisible (q.commitWriteSlot k) := by
  unfold Ring.commitWriteSlot
  rw [h.size k]
  split
  · exact ⟨h.rd, congrArg nextSlot h.wr, h.slots⟩
  · exact h

theorem Ring.SameVisible.appendOption (k : SlotIdx) (b : Option Bool) :
    (r.appendOption k b).SameVisible (q.appendOption k b) := by
  cases b with
  | none => exact h
  | some b =>
    refine ⟨h.rd, h.wr, fun j => ?_⟩
    simp only [Ring.appendOption_some, Memory.frame_append]
    split
    · exact (h.slots k).append b
    · exact h.slots j

theorem Ring.SameVisible.releaseHead (k : SlotIdx) : (r.releaseHead k).SameVisible (q.releaseHead k) := by
  refine ⟨congrArg nextSlot h.rd, h.wr, fun j => ?_⟩
  simp only [Ring.releaseHead, Memory.frame_clear]
  split
  · exact Frame.SameVisible.clear _ _
  · exact h.slots j

/-- An edge never looks at a stored bit: it sets the same decoder registers and commits or appends alike. -/
theorem Ring.SameVisible.after_edge (tm : TimingModel) (dec : Decoder) (x : U32) :
    (edgeEffect tm dec q x).1 = (edgeEffect tm dec r x).1
    ∧ (edgeEffect tm dec r x).2.SameVisible (edgeEffect tm dec q x).2 := by
  unfold edgeEffect
  rw [q.acquireWriteSlot_eq, r.acquireWriteSlot_eq, h.full, h.wr]
  cases r.full with
  | true => exact ⟨rfl, h⟩
  | false =>
    simp only [Bool.false_eq_true, if_false]
    split
    · exact ⟨rfl, h.commitWriteSlot r.wr⟩
    · exact ⟨rfl, h.appendOption r.wr _⟩

end rings

/-! The outcome of each command and of a step, from a state and from the same state with a related ring. -/

section states

variable {s : State} {q : Ring} (h : s.ring.SameVisible q)
include h

theorem State.sameVisible_withRing : s.SameVisible (s.withRing q) := (s.sameVisible_iff _).mpr ⟨q, h, rfl⟩

/-- STATUS reports indices and a size, no stored bit (R190). -/
theorem statusResponse_withRing : statusResponse (s.withRing q) = statusResponse s := by
  simp only [statusResponse, State.withRing_ring, State.withRing_enc, State.withRing_dec, h.wr, h.size, h.index]

/-- Related states answer the same command alike: each response reads only indices, sizes and visible bits. -/
theorem exec_sameVisible (i : Instr) : SameVisibleOutcome (exec i s) (exec i (s.withRing q)) := by
  cases i with
  | edge x =>
    obtain ⟨hdec, hring⟩ := h.after_edge s.tm s.dec x
    rw [exec_edge, exec_edge]
    refine (State.sameVisible_iff _ _).mpr ⟨_, hring, ?_⟩
    simp only [State.withRing_tm, State.withRing_dec, State.withRing_ring, hdec]
    rfl
  | rdAcquire =>
    rw [exec_rdAcquire, exec_rdAcquire]
    simp only [State.withRing_ring, h.rd, h.wr, h.size]
    exact State.sameVisible_withRing (s := s.respond _) h
  | rdBit k j =>
    rw [exec_rdBit, exec_rdBit]
    simp only [State.withRing_ring, h.isHead, (h.slots k).visibleBit]
    split
    · exact State.sameVisible_withRing (s := s.respond _) h
    · exact State.sameVisible_withRing (s := s.raiseFault _ _) h
  | rdWord k w =>
    rw [exec_rdWord, exec_rdWord]
    simp only [State.withRing_ring, h.isHead, (h.slots k).visibleWord]
    split
    · exact State.sameVisible_withRing (s := s.respond _) h
    · exact State.sameVisible_withRing (s := s.raiseFault _ _) h
  | rdRelease k =>
    rw [exec_rdRelease, exec_rdRelease]
    simp only [State.withRing_ring, h.isHead, h.size]
    split
    · exact State.sameVisible_withRing (s := s.respond _) h
    · split
      · exact State.sameVisible_withRing (s := (s.withRing _).respond _) (h.releaseHead k)
      · exact State.sameVisible_withRing (s := s.raiseFault _ _) h
  | txStart c r =>
    rw [exec_txStart, exec_txStart]
    cases hb : s.enc.busy
    · by_cases hr : r = 0
      · simp only [State.withRing_enc, hb, hr, if_true, Bool.false_eq_true, if_false]
        exact State.sameVisible_withRing (s := s.respond _) h
      · simp only [State.withRing_enc, hb, hr, Bool.false_eq_true, if_false]
        exact State.sameVisible_withRing (s := (s.withEnc _).respond _) h
    · simp only [State.withRing_enc, hb, if_true]
      exact State.sameVisible_withRing (s := s.raiseFault _ _) h
  | status =>
    rw [exec_status, exec_status, statusResponse_withRing h]
    exact State.sameVisible_withRing (s := s.respond _) h

end states

/-- A step by the next event; the sequencer reads no ring register, and reset gives both states the same bits. -/
theorem step_sameVisible {s : State} {q : Ring} (h : s.ring.SameVisible q) :
    SameVisibleOutcome (step s) (step (s.withRing q)) := by
  rcases hs : s.schedule with _ | ⟨⟨p, w⟩ | _ | _ | ⟨le, bits⟩, rest⟩
  · cases hb : s.enc.busy
    · rw [step_of_idle hs hb, step_of_idle (s := s.withRing q) hs hb]
      exact State.sameVisible_withRing h
    · rw [step_of_busy hs hb, step_of_busy (s := s.withRing q) hs hb]
      exact State.sameVisible_withRing (s := s.txSegmentStep) h
  · cases hd : decode w with
    | command i =>
      rw [step_of_command hs hd, step_of_command (s := s.withRing q) hs hd]
      split
      · exact exec_sameVisible (s := s.accept p rest) h i
      · exact rfl
    | illegal e =>
      rw [step_of_illegal hs hd, step_of_illegal (s := s.withRing q) hs hd]
      exact State.sameVisible_withRing (s := (s.withSchedule rest).refuseIllegal) h
  · cases hb : s.enc.busy
    · rw [step_of_txStep_idle hs hb, step_of_txStep_idle (s := s.withRing q) hs hb]
      exact rfl
    · rw [step_of_txStep hs hb, step_of_txStep (s := s.withRing q) hs hb]
      exact State.sameVisible_withRing (s := (s.withSchedule rest).txSegmentStep) h
  · cases hb : s.enc.busy
    · rw [step_of_txRun_idle hs hb, step_of_txRun_idle (s := s.withRing q) hs hb]
      exact State.sameVisible_withRing (s := s.withSchedule rest) h
    · rw [step_of_txRun hs hb, step_of_txRun (s := s.withRing q) hs hb]
      exact State.sameVisible_withRing (s := s.txSegmentStep) h
  · rw [step_of_reset hs, step_of_reset (s := s.withRing q) hs]
    exact State.SameVisible.refl _

/-- Settles O47: related states differ in the ring only, and every read of the ring is cut to the sizes, which agree. -/
theorem staleBitsAreNeverObservable : Obligations.StaleBitsAreNeverObservable := by
  intro s u h
  obtain ⟨q, hq, rfl⟩ := (s.sameVisible_iff u).mp h
  exact step_sameVisible hq

/-! ### The size registers -/

theorem edgeEffect_wf (tm : TimingModel) (dec : Decoder) (r : Ring) (x : U32) (h : r.slots.wf = true) :
    (edgeEffect tm dec r x).2.slots.wf = true := by
  rcases edgeEffect_cases tm dec r x with ⟨-, he⟩ | ⟨-, -, he⟩ | ⟨-, -, he⟩ <;> rw [he]
  · exact h
  · simpa using h
  · rcases (classify tm dec.state (x - dec.lastEdge)).2 with _ | b
    · exact h
    · exact Memory.wf_append _ _ b h

/-- Settles O5: an edge appends within capacity, a release clears a size, reset clears all of them. -/
theorem everyStepKeepsSizesInRange : Obligations.EveryStepKeepsSizesInRange := by
  intro s t hwf hs
  rcases step_ring_cases hs with ⟨x, hr⟩ | ⟨-, hr⟩ | ⟨le, bits, hr⟩ | hr <;> rw [hr]
  · exact edgeEffect_wf _ _ _ x hwf
  · exact Memory.wf_clear _ _ hwf
  · exact Memory.wf_atReset _ le bits
  · exact hwf

/-! ### The TimingModel and the records -/

/-- Settles O16: no move writes `TM`, and reset hands it on. -/
theorem noStepChangesTM : Obligations.NoStepChangesTM := by
  intro s t hs
  rcases step_cases hs with ⟨-, rfl⟩ | ⟨p, w, rest, e, -, -, rfl⟩ | ⟨p, w, rest, i, -, -, -, hx⟩ | ⟨rest, -, -, rfl⟩
    | ⟨rest, -, rfl⟩ | ⟨le, bits, rest, -, rfl⟩
  · split <;> rfl
  · rfl
  · obtain ⟨htm, -⟩ := exec_frame hx
    exact htm
  · rfl
  · split <;> rfl
  · rfl

theorem State.good_iff (s : State) : s.good = true ↔ s.fault = [] ∧ s.refused = false := by simp [State.good]

/-- A state is good only if its records are empty, so records that grow keep a state that is not good from becoming so. -/
theorem State.good_of_records_grow {s t : State} (hf : s.fault <+: t.fault) (hr : s.refused = true → t.refused = true)
    (ht : t.good = true) : s.good = true := by
  obtain ⟨htf, htr⟩ := t.good_iff.mp ht
  refine s.good_iff.mpr ⟨by simpa [htf] using hf, ?_⟩
  cases hs : s.refused
  · rfl
  · rw [hr hs] at htr
    cases htr

/-- What a step without reset does to the three records of R31. -/
theorem step_records_grow {s t : State} (hs : step s = .next t) (hnr : s.resetPending = false) :
    s.fault <+: t.fault ∧ s.trace <+: t.trace ∧ (s.refused = true → t.refused = true) := by
  rcases step_cases hs with ⟨-, rfl⟩ | ⟨p, w, rest, e, -, -, rfl⟩ | ⟨p, w, rest, i, -, -, -, hx⟩ | ⟨rest, -, -, rfl⟩
    | ⟨rest, -, rfl⟩ | ⟨le, bits, rest, hsched, -⟩
  · split <;> simp
  · simp
  · obtain ⟨-, href, htrace, -, -, -, hfault⟩ := exec_frame hx
    exact ⟨hfault, by simp [htrace], by simp [href]⟩
  · simp
  · split <;> simp
  · simp [State.resetPending, hsched] at hnr

/-- Settles O17: each record only grows, and a good state is one whose records of faults and refusals are empty. -/
theorem recordsOnlyGrow : Obligations.RecordsOnlyGrow := by
  intro s t hs hnr
  obtain ⟨hfault, htrace, href⟩ := step_records_grow hs hnr
  refine ⟨hfault, htrace, href, fun hbad => ?_⟩
  rw [← Bool.not_eq_true] at hbad ⊢
  exact fun hgood => hbad (State.good_of_records_grow hfault href hgood)

/-! ### The packed ring index -/

@[simp] theorem RingHalf.get_set (h : RingHalf) (x : BitVec 6) (v : BitVec 3) : h.get (h.set x v) = v := by
  cases h <;> revert x v <;> decide

@[simp] theorem RingHalf.other_get_set (h : RingHalf) (x : BitVec 6) (v : BitVec 3) :
    h.other.get (h.set x v) = h.other.get x := by
  cases h <;> revert x v <;> decide

@[simp] theorem RingHalf.other_other (h : RingHalf) : h.other.other = h := by cases h <;> rfl

@[simp] theorem RingHalf.get_other_set (h : RingHalf) (x : BitVec 6) (v : BitVec 3) :
    h.get (h.other.set x v) = h.get x := by
  simpa using h.other.other_get_set x v

theorem Ring.write_set_index (r : Ring) : RingHalf.write.set r.index (RingHalf.write.get r.index + 1)
    = { r with wr := nextSlot r.wr }.index := by
  have key : ∀ rd wr : SlotIdx, RingHalf.write.set (BitVec.ofNat 3 rd.val ++ BitVec.ofNat 3 wr.val)
      (RingHalf.write.get (BitVec.ofNat 3 rd.val ++ BitVec.ofNat 3 wr.val) + 1)
      = BitVec.ofNat 3 rd.val ++ BitVec.ofNat 3 (nextSlot wr).val := by decide
  exact key r.rd r.wr

theorem Ring.read_set_index (r : Ring) : RingHalf.read.set r.index (RingHalf.read.get r.index + 1)
    = { r with rd := nextSlot r.rd }.index := by
  have key : ∀ rd wr : SlotIdx, RingHalf.read.set (BitVec.ofNat 3 rd.val ++ BitVec.ofNat 3 wr.val)
      (RingHalf.read.get (BitVec.ofNat 3 rd.val ++ BitVec.ofNat 3 wr.val) + 1)
      = BitVec.ofNat 3 (nextSlot rd).val ++ BitVec.ofNat 3 wr.val := by decide
  exact key r.rd r.wr

/-- The loop advances its own half by one, whatever the other side does. -/
theorem casAdvance_get (h : RingHalf) (x : BitVec 6) (vs : List (BitVec 3)) :
    h.get (casAdvance h x vs) = h.get x + 1 := by
  induction vs generalizing x with
  | nil => simp [casAdvance]
  | cons v rest ih =>
    simp only [casAdvance]
    split
    · simp
    · simp [ih]

/-- The loop leaves in the other half its old value or one of those the other side put there. -/
theorem casAdvance_other_get (h : RingHalf) (x : BitVec 6) (vs : List (BitVec 3)) :
    h.other.get (casAdvance h x vs) = h.other.get x ∨ h.other.get (casAdvance h x vs) ∈ vs := by
  induction vs generalizing x with
  | nil => simp [casAdvance]
  | cons v rest ih =>
    simp only [casAdvance]
    split
    · simp
    · rcases ih (h.other.set x v) with hv | hmem
      · simp [hv]
      · exact .inr (List.mem_cons_of_mem v hmem)

/-- Settles O22, by induction on the interference. -/
theorem compareAndSwapLoopAdvancesOwnHalfOnce : Obligations.CompareAndSwapLoopAdvancesOwnHalfOnce :=
  ⟨fun h x vs => ⟨casAdvance_get h x vs, casAdvance_other_get h x vs⟩,
    fun r => ⟨r.write_set_index, r.read_set_index⟩⟩

/-! ### The owners of each part of the state -/

@[simp] theorem Ring.releaseHead_read (r : Ring) (k j : SlotIdx) (n : Nat) :
    (r.releaseHead k).slots.read j n = r.slots.read j n := by
  unfold Memory.read
  simp only [Ring.releaseHead, Memory.frame_clear]
  split
  next hj => rw [hj, Frame.clear_read]
  next => rfl

@[simp] theorem Ring.releaseHead_wr (r : Ring) (k : SlotIdx) : (r.releaseHead k).wr = r.wr := rfl

@[simp] theorem edgeEffect_rd (tm : TimingModel) (dec : Decoder) (r : Ring) (x : U32) :
    (edgeEffect tm dec r x).2.rd = r.rd := by
  rcases edgeEffect_cases tm dec r x with ⟨-, he⟩ | ⟨-, -, he⟩ | ⟨-, -, he⟩ <;> simp [he]

/-- Settles O41: EDGE and RD_RELEASE are the only commands that write the ring, EDGE the only one that writes the decoder,
TX_START the only one that writes the sequencer. -/
theorem eachSideWritesOnlyItsOwnState : Obligations.EachSideWritesOnlyItsOwnState := by
  intro i s t h
  obtain ⟨htm, href, htrace, hsched, hto, hpin, -⟩ := exec_frame h
  have hring := exec_ring_cases h
  refine ⟨fun hi => ⟨exec_dec_of_not_edge h hi, ?_⟩, fun hi => ?_, fun hi hi' => ?_, fun hi => ?_,
    hpin, htrace, htm, href, hsched, hto⟩
  · rcases hring with ⟨x, hx, -⟩ | ⟨-, -, hr⟩ | hr
    · exact absurd hx (hi x)
    · simp [hr]
    · simp [hr]
  · rcases hring with ⟨x, -, hr⟩ | ⟨hx, -, -⟩ | hr
    · simp [hr]
    · exact absurd hx (hi _)
    · rw [hr]
  · rcases hring with ⟨x, hx, -⟩ | ⟨hx, -, -⟩ | hr
    · exact absurd hx (hi x)
    · exact absurd hx (hi' _)
    · exact hr
  · rcases exec_enc_cases h with ⟨c, r, hx, -⟩ | he
    · exact absurd hx (hi c r)
    · exact he

/-! ### The bounds of the queue -/

theorem Ring.mem_queue {r : Ring} {f : List Bool} (h : f ∈ r.queue) :
    ∃ k, r.committed k = true ∧ f = (r.slots.frame k).content := by
  obtain ⟨n, hn, rfl⟩ := List.mem_map.mp h
  exact ⟨_, r.committed_of_lt n (List.mem_range.mp hn), rfl⟩

theorem Ring.Inv.queue_frame_length {r : Ring} (hr : r.Inv) {f : List Bool} (h : f ∈ r.queue) :
    1 ≤ f.length ∧ f.length ≤ 128 := by
  obtain ⟨k, hk, rfl⟩ := Ring.mem_queue h
  rw [Frame.content_length]
  exact hr.committed_size k hk

/-- Settles O45: the queue has `buffered` frames, each from a committed slot, whose size INV2 bounds. -/
theorem queueIsBounded : Obligations.QueueIsBounded := by
  intro s hs
  refine ⟨?_, fun f hf => hs.ring.queue_frame_length hf, ?_⟩
  · rw [Ring.queue_length]
    exact s.ring.buffered_le_seven
  · rw [Ring.queue_length, Ring.full_iff_buffered]

/-! ### Reset and the ring's conditions -/

/-- Settles O1: each element by definition, a stored bit through the slot's frame. -/
theorem resetGivesTheListedValues : Obligations.ResetGivesTheListedValues := by
  refine ⟨fun tm le bits => ⟨rfl, rfl, rfl, rfl, State.atReset_size tm le bits, fun k j => ?_, rfl, rfl, rfl, rfl⟩,
    rfl, rfl, rfl, State.atReset_size _ _ _, rfl, rfl, rfl, rfl⟩
  rw [Memory.read, State.atReset_frame, Frame.read]

/-- Settles O3: no slot is committed, every size is 0 and the sequencer is idle. -/
theorem invariantHoldsAtReset : Obligations.InvariantHoldsAtReset :=
  ⟨State.Inv.atReset, State.Inv.atReset _ _ _⟩

theorem Ring.buffered_eq_zero_iff (r : Ring) : r.buffered = 0 ↔ r.rd = r.wr := by
  rw [Ring.buffered, Fin.val_eq_zero_iff, sub_eq_zero, eq_comm]

theorem slot_eq_next_iff : ∀ a b : SlotIdx, a = b + 1 ↔ a.val = (b.val + 1) % 8 := by decide

/-- Settles O21: `buffered` is a subtraction of slot indices, so it wraps modulo 8. -/
theorem ringConditions : Obligations.RingConditions := by
  intro r
  refine ⟨?_, r.empty_iff, ?_, ?_, r.full_iff_buffered⟩
  · rw [Ring.buffered, Fin.val_sub]
    have := r.rd.isLt
    congr 1
    omega
  · rw [r.empty_iff, r.buffered_eq_zero_iff]
  · rw [r.full_iff, slot_eq_next_iff]

end Sys2Proof.Machine

namespace Sys2Proof.Machine

/-! PROOFS of the statements on the frame memory and the order of atomic steps (spec 20_memory.md): the views of a frame,
the release of a slot, what keeps a committed frame, the order of the transmitted bits, and that a segment step commutes
with the commands of the receive side. -/

/-! ### The responses of the head slot -/

theorem exec_rdBit_of_head {s : State} {k : SlotIdx} (h : s.ring.isHead k = true) (i : BitIdx) :
    exec (.rdBit k i) s = .next (s.respond (bitResponse ((s.ring.slots.frame k).visibleBit i.val))) := by
  rw [exec_rdBit, if_pos h]

theorem exec_rdWord_of_head {s : State} {k : SlotIdx} (h : s.ring.isHead k = true) (w : WordSel) :
    exec (.rdWord k w) s = .next (s.respond ((s.ring.slots.frame k).visibleWord w)) := by
  rw [exec_rdWord, if_pos h]

theorem bitResponse_getLsbD_zero (b : Bool) : (bitResponse b).getLsbD 0 = b := by cases b <;> rfl

theorem bitResponse_toNat_le_one (b : Bool) : (bitResponse b).toNat ≤ 1 := by cases b <;> decide

/-- A bit and a word of a frame are two views of the same storage position (R55). -/
theorem Frame.visibleBit_eq_visibleWord (f : Frame) (w : WordSel) (i : Nat) (h : w.val = i / 64) :
    f.visibleBit i = (f.visibleWord w).getLsbD (i % 64) := by
  have hi : 64 * w.val + i % 64 = i := by rw [h]; exact Nat.div_add_mod i 64
  rw [f.visibleWord_getLsbD w _ (Nat.mod_lt i (by decide)), hi, Frame.visibleBit]

/-- Settles O34: both reads of the head slot show the position `64 * w + i % 64`, which is `i`. -/
theorem readBitAgreesWithReadWord : Obligations.ReadBitAgreesWithReadWord := by
  intro s u v k i w hk hw hu hv
  rw [exec_rdBit_of_head hk] at hu
  rw [exec_rdWord_of_head hk] at hv
  cases hu
  cases hv
  refine ⟨?_, bitResponse_toNat_le_one _⟩
  rw [State.respond_resp, State.respond_resp, bitResponse_getLsbD_zero, Frame.visibleBit_eq_visibleWord _ w i.val hw]

/-! ### A valid frame -/

theorem Frame.value_getLsbD (f : Frame) (j : Nat) (hj : j < 64) : f.value.getLsbD j = f.read j := by
  simp [Frame.value, Frame.read, hj]

section validFrames

variable {f : Frame} (h : f.isValid = true)
include h

theorem Frame.size_toNat_of_valid : f.size.toNat = 64 := by
  have hsize : f.size = 64#8 := by simpa [Frame.isValid] using h
  rw [hsize]
  rfl

theorem Frame.visibleWord_zero_of_valid : f.visibleWord 0 = f.value := by
  apply BitVec.eq_of_getLsbD_eq
  intro j hj
  rw [f.visibleWord_getLsbD 0 j hj, f.value_getLsbD j hj, Frame.size_toNat_of_valid h]
  simp [hj]

/-- The size cuts every bit of word 1 off. -/
theorem Frame.visibleWord_one_of_valid : f.visibleWord 1 = 0#64 := by
  apply BitVec.eq_of_getLsbD_eq
  intro j hj
  rw [f.visibleWord_getLsbD 1 j hj, Frame.size_toNat_of_valid h]
  simp

end validFrames

/-- Settles O35: word 0 is all below the size 64, word 1 all at or beyond it. -/
theorem validFrameReadsAsItsValue : Obligations.ValidFrameReadsAsItsValue := by
  intro s u v hne hvalid hu hv
  have hhead : s.ring.isHead s.ring.rd = true := (s.ring.isHead_iff _).mpr ⟨hne, rfl⟩
  rw [exec_rdWord_of_head hhead] at hu hv
  cases hu
  cases hv
  rw [State.respond_resp, State.respond_resp, Frame.visibleWord_zero_of_valid hvalid]
  exact ⟨rfl, Frame.visibleWord_one_of_valid hvalid, fun j hj => Frame.value_getLsbD _ j hj⟩

/-! ### A second release -/

theorem exec_rdRelease_of_free {s : State} {k : SlotIdx} (h : (s.ring.slots.frame k).size = 0) :
    exec (.rdRelease k) s = .next (s.respond 0) := by
  rw [exec_rdRelease, if_pos h]

@[simp] theorem Ring.releaseHead_size (r : Ring) (k : SlotIdx) : ((r.releaseHead k).slots.frame k).size = 0#8 := by
  simp [Ring.releaseHead, Memory.frame_clear]

/-- After a release without a fault the slot is free and the answer is 0. -/
theorem free_after_release {s t : State} {k : SlotIdx} (h : exec (.rdRelease k) s = .next t) (hf : t.fault = s.fault) :
    (t.ring.slots.frame k).size = 0 ∧ t.resp = 0 := by
  rw [exec_rdRelease] at h
  cases h
  split at hf
  next hfree => rw [if_pos hfree]; exact ⟨hfree, rfl⟩
  next hfree =>
    rw [if_neg hfree]
    split at hf
    next hhead => rw [if_pos hhead]; exact ⟨Ring.releaseHead_size _ k, rfl⟩
    next => simp at hf

/-- Settles O37: the first release leaves the slot free, and a release of a free slot only answers 0. -/
theorem releaseIsIdempotent : Obligations.ReleaseIsIdempotent := by
  intro s t k h hf
  obtain ⟨hfree, hresp⟩ := free_after_release h hf
  calc exec (.rdRelease k) t = .next (t.respond 0) := exec_rdRelease_of_free hfree
    _ = .next (t.respond t.resp) := by rw [hresp]
    _ = .next t := rfl

/-! ### Committed frames -/

/-- A ring keeps the slot `k` committed with its frame. -/
def Ring.KeepsCommitted (r q : Ring) (k : SlotIdx) : Prop :=
  q.committed k = true ∧ q.slots.frame k = r.slots.frame k

section committed

variable {r : Ring} {k : SlotIdx} (h : r.committed k = true)
include h

theorem Ring.ne_wr_of_committed : k ≠ r.wr := by
  rintro rfl
  rw [r.wr_not_committed] at h
  cases h

theorem Ring.commitWriteSlot_keepsCommitted (hf : r.full = false) : r.KeepsCommitted (r.commitWriteSlot r.wr) k := by
  refine ⟨?_, by rw [Ring.commitWriteSlot_slots]⟩
  by_cases hempty : (r.slots.frame r.wr).size = 0#8
  · rwa [r.commitWriteSlot_of_empty _ hempty]
  · rw [r.commitWriteSlot_of_nonempty _ hempty, Ring.committed_iff]
    exact (slot_committed_advance _ _ k (r.full_eq_false_iff.mp hf)).mpr (.inl ((r.committed_iff k).mp h))

theorem Ring.appendOption_keepsCommitted (b : Option Bool) : r.KeepsCommitted (r.appendOption r.wr b) k := by
  refine ⟨?_, r.appendOption_frame_of_ne b (Ring.ne_wr_of_committed h)⟩
  rwa [Ring.committed, Ring.buffered, Ring.appendOption_rd, Ring.appendOption_wr]

/-- An edge commits the write slot or appends to it, and the write slot is never committed before (INV1). -/
theorem edgeEffect_keepsCommitted (tm : TimingModel) (dec : Decoder) (x : U32) :
    r.KeepsCommitted (edgeEffect tm dec r x).2 k := by
  rcases edgeEffect_cases tm dec r x with ⟨-, he⟩ | ⟨hf, -, he⟩ | ⟨-, -, he⟩ <;> rw [he]
  · exact ⟨h, rfl⟩
  · exact Ring.commitWriteSlot_keepsCommitted h hf
  · exact Ring.appendOption_keepsCommitted h _

end committed

/-- Every change of the ring by a step that is not the reset input: a release of the head slot is one of the next event. -/
theorem step_ring_cases_of_no_reset {s t : State} (h : step s = .next t) (hnr : s.resetPending = false) :
    (∃ x, t.ring = (edgeEffect s.tm s.dec s.ring x).2)
    ∨ (∃ p w rest, s.schedule = .command p w :: rest ∧ decode w = .command (.rdRelease s.ring.rd))
    ∨ t.ring = s.ring := by
  rcases step_cases h with ⟨-, rfl⟩ | ⟨p, w, rest, e, -, -, rfl⟩ | ⟨p, w, rest, i, hs, hd, -, hx⟩ | ⟨rest, -, -, rfl⟩
    | ⟨rest, -, rfl⟩ | ⟨le, bits, rest, hs, -⟩
  · right; right; split <;> rfl
  · exact .inr (.inr rfl)
  · rcases exec_ring_cases hx with ⟨x, -, hr⟩ | ⟨rfl, -, -⟩ | hr
    · exact .inl ⟨x, hr⟩
    · exact .inr (.inl ⟨p, w, rest, hs, hd⟩)
    · exact .inr (.inr hr)
  · exact .inr (.inr rfl)
  · right; right; split <;> rfl
  · simp [State.resetPending, hs] at hnr

/-- Settles O46: without reset and without a release of the head slot, only an edge changes the ring. -/
theorem committedFramesStayUntilReleased : Obligations.CommittedFramesStayUntilReleased := by
  intro s t k _ hk hnr hrelease hs
  rcases step_ring_cases_of_no_reset hs hnr with ⟨x, hr⟩ | ⟨p, w, rest, hsched, hd⟩ | hr
  · rw [hr]
    exact edgeEffect_keepsCommitted hk _ _ x
  · exact absurd hd (hrelease p w rest hsched)
  · rw [hr]
    exact ⟨hk, rfl⟩

/-! ### The order of the transmitted bits -/

theorem flatMap_symbolSegments_length (xs : List SymbolTiming) :
    (xs.flatMap symbolSegments).length = 2 * xs.length := by
  simp [symbolSegments, List.length_flatMap, Nat.mul_comm]

/-- The two segments of the `n`-th symbol stand at the positions `2n` and `2n + 1`. -/
theorem flatMap_symbolSegments_getElem? {xs : List SymbolTiming} {n : Nat} {x : SymbolTiming} (h : xs[n]? = some x) :
    (xs.flatMap symbolSegments)[2 * n]? = some ⟨true, x.high.nom⟩
    ∧ (xs.flatMap symbolSegments)[2 * n + 1]? = some ⟨false, x.low.nom⟩ := by
  induction xs generalizing n with
  | nil => simp at h
  | cons y ys ih =>
    cases n with
    | zero =>
      obtain rfl : y = x := by simpa using h
      exact ⟨rfl, rfl⟩
    | succ n => exact ih (n := n) (by simpa using h)

theorem txSegments_one (tm : TimingModel) (code : U64) : txSegments tm code 1 = repeatSegments tm code := by
  simp [txSegments]

theorem repeatSymbols_succ (tm : TimingModel) (code : U64) {j : Nat} (hj : j < 64) :
    (repeatSymbols tm code)[j + 1]? = some (dataSymbol tm (code.getLsbD j)) := by
  simp [repeatSymbols, hj]

/-- Settles O52: the sync symbol is symbol 0 and bit `j` is symbol `j + 1`, two segments each. -/
theorem repeatSendsBitZeroFirst : Obligations.RepeatSendsBitZeroFirst := by
  intro tm code
  rw [txSegments_one, repeatSegments]
  refine ⟨?_, rfl, rfl, fun j hj => ?_⟩
  · rw [flatMap_symbolSegments_length]
    simp [repeatSymbols]
  · obtain ⟨hhigh, hlow⟩ := flatMap_symbolSegments_getElem? (repeatSymbols_succ tm code hj)
    refine ⟨hhigh.trans ?_, hlow.trans ?_⟩ <;> cases code.getLsbD j <;> rfl

/-! ### A segment step and the receive side -/

/-- Settles O55: a segment step writes nothing that these commands read or write, so each takes the same branch before and
after it, and the updates of each branch commute by definition. -/
theorem segmentStepCommutesWithReception : Obligations.SegmentStepCommutesWithReception := by
  intro i s t hstatus hstart h
  cases i with
  | edge x => rw [exec_edge] at h ⊢; cases h; rfl
  | rdAcquire => rw [exec_rdAcquire] at h ⊢; cases h; rfl
  | rdBit k j =>
    rw [exec_rdBit] at h ⊢; cases h
    rw [apply_ite State.txSegmentStep]
    rfl
  | rdWord k w =>
    rw [exec_rdWord] at h ⊢; cases h
    rw [apply_ite State.txSegmentStep]
    rfl
  | rdRelease k =>
    rw [exec_rdRelease] at h ⊢; cases h
    rw [apply_ite State.txSegmentStep, apply_ite State.txSegmentStep]
    rfl
  | txStart c r => exact absurd rfl (hstart c r)
  | status => exact absurd rfl hstatus

/-! ### A step and its command -/

/-- Settles O12: `State.accept` is the state with the event consumed and the response addressed to the port. -/
theorem stepRunsTheDecodedCommand : Obligations.StepRunsTheDecodedCommand := by
  intro s p w rest i hs hd
  rw [step_of_command hs hd]
  exact ⟨fun hp => if_pos hp, fun hp => if_neg (by simp [hp])⟩

end Sys2Proof.Machine

namespace Sys2Proof

/-! PROOFS of the statements on the encoding (spec 30_encoding.md): the fields of a packed word, which packed words each
row accepts, decoding and encoding, and assembly. -/

/-! ### Every legal word is a packed word -/

@[simp] theorem wordSelField_pack (op : BitVec 4) (slot : BitVec 3) (idx : BitVec 7) (rep : U8) (data : U64) :
    wordSelField (packCommand op slot idx rep data) = Fin.ofNat 2 idx.toNat := by
  have hbit : (packCommand op slot idx rep data).extractLsb' 8 1 = idx.setWidth 1 := by
    apply BitVec.eq_of_getLsbD_eq
    intro i hi
    obtain rfl : i = 0 := by omega
    rw [BitVec.getLsbD_extractLsb', packCommand_getLsbD, BitVec.getLsbD_setWidth]
    simp
  ext
  simp [wordSelField, hbit]

/-- Masking a packed word masks its fields: its reserved bits are 0 already (R70). -/
theorem packCommand_and (op : BitVec 4) (slot : BitVec 3) (idx : BitVec 7) (rep : U8) (data : U64) (m : CmdWord) :
    packCommand op slot idx rep data &&& m =
      packCommand (op &&& opField m) (slot &&& m.extractLsb' 4 3) (idx &&& m.extractLsb' 8 7) (rep &&& repField m)
        (data &&& codeField m) := by
  apply BitVec.eq_of_getLsbD_eq
  intro n hn
  simp only [BitVec.getLsbD_and, packCommand_getLsbD, opField, repField, codeField, BitVec.getLsbD_extractLsb']
  repeat' split
  all_goals grind

/-- Two packed words are equal exactly when their fields are. -/
theorem packCommand_inj {op op' : BitVec 4} {slot slot' : BitVec 3} {idx idx' : BitVec 7} {rep rep' : U8}
    {data data' : U64} : packCommand op slot idx rep data = packCommand op' slot' idx' rep' data' ↔
      op = op' ∧ slot = slot' ∧ idx = idx' ∧ rep = rep' ∧ data = data' := by
  constructor
  · intro h
    refine ⟨?_, ?_, ?_, ?_, ?_⟩
    · simpa using congrArg opField h
    · simpa [← BitVec.toFin_inj] using congrArg slotField h
    · simpa [← BitVec.toFin_inj] using congrArg idxField h
    · simpa using congrArg repField h
    · simpa using congrArg codeField h
  · rintro ⟨rfl, rfl, rfl, rfl, rfl⟩
    rfl

/-- The reserved bits of R70: 7, 15 and 31 to 24. -/
def reservedMask : CmdWord := 0xFF008080#96

theorem reservedMask_getLsbD : ∀ n < 96, reservedMask.getLsbD n = decide (n = 7 ∨ n = 15 ∨ 24 ≤ n ∧ n < 32) := by
  decide

/-- A word with every reserved bit 0 is the packing of its own fields. -/
theorem packCommand_fields {w : CmdWord} (h : w &&& reservedMask = 0#96) :
    packCommand (opField w) (w.extractLsb' 4 3) (w.extractLsb' 8 7) (repField w) (codeField w) = w := by
  have hreserved (n : Nat) (hn : n < 96) (hr : n = 7 ∨ n = 15 ∨ 24 ≤ n ∧ n < 32) : w.getLsbD n = false := by
    have := congrArg (fun x => x.getLsbD n) h
    simpa [reservedMask_getLsbD n hn, hr] using this
  apply BitVec.eq_of_getLsbD_eq
  intro n hn
  simp only [packCommand_getLsbD, opField, repField, codeField, BitVec.getLsbD_extractLsb']
  repeat' split
  all_goals grind

theorem commandTable_reserved :
    ∀ r ∈ commandTable, r.mask &&& reservedMask = reservedMask ∧ r.matchBits &&& reservedMask = 0#96 := by
  decide

/-- A word that a row accepts is a packed word: every mask holds the reserved bits at 0. -/
theorem exists_pack_of_accepts {r : Row} {w : CmdWord} (hr : r ∈ commandTable) (h : r.accepts w = true) :
    ∃ op slot idx rep data, w = packCommand op slot idx rep data := by
  obtain ⟨hmask, hmatch⟩ := commandTable_reserved r hr
  refine ⟨_, _, _, _, _, (packCommand_fields ?_).symm⟩
  calc w &&& reservedMask = (w &&& r.mask) &&& reservedMask := by rw [BitVec.and_assoc, hmask]
    _ = 0#96 := by rw [(r.accepts_iff w).mp h, hmatch]

/-! ### The packed words that each row accepts (R72) -/

section Rows

variable (op : BitVec 4) (slot : BitVec 3) (idx : BitVec 7) (rep : U8) (data : U64)

theorem commandTable_match : ∀ r ∈ commandTable, r.matchBits = packCommand (opField r.matchBits) 0 0 0 0 := by
  decide

/-- A row compares the operation code in full, and requires 0 in the bits of each other field that its mask names. -/
theorem Row.accepts_pack {r : Row} (hr : r ∈ commandTable) : r.accepts (packCommand op slot idx rep data) = true ↔
    op &&& opField r.mask = opField r.matchBits ∧ slot &&& r.mask.extractLsb' 4 3 = 0
    ∧ idx &&& r.mask.extractLsb' 8 7 = 0 ∧ rep &&& repField r.mask = 0 ∧ data &&& codeField r.mask = 0 := by
  rw [r.accepts_iff, packCommand_and, commandTable_match r hr, packCommand_inj, opField_pack]

/-- The mask of EDGE over the payload: `data[63:32]` must be 0 (R70). -/
theorem data_high_eq_zero_iff : data &&& 0xFFFFFFFF00000000#64 = 0 ↔ (data.setWidth 32).setWidth 64 = data := by
  have hmask : ∀ n < 64, (0xFFFFFFFF00000000#64).getLsbD n = decide (32 ≤ n) := by decide
  constructor
  · intro h
    apply BitVec.eq_of_getLsbD_eq
    intro n hn
    have := congrArg (fun x => x.getLsbD n) h
    grind
  · intro h
    rw [← h]
    apply BitVec.eq_of_getLsbD_eq
    intro n hn
    grind

/-- The mask of RD_WORD over `idx`: `idx[6:1]` must be 0 (R70). -/
theorem idx_high_eq_zero_iff :
    ∀ idx : BitVec 7, idx &&& 0x7E#7 = 0 ↔ BitVec.ofNat 7 (idx.toNat % 2) = idx := by
  decide

/-! A mask of all ones keeps its field: `BitVec.and_allOnes` at the literal that `simp` computes for each field's mask. -/

@[simp] theorem op_and_ones : op &&& 0xF#4 = op := BitVec.and_allOnes
@[simp] theorem slot_and_ones : slot &&& 0x7#3 = slot := BitVec.and_allOnes
@[simp] theorem idx_and_ones : idx &&& 0x7F#7 = idx := BitVec.and_allOnes
@[simp] theorem rep_and_ones : rep &&& 0xFF#8 = rep := BitVec.and_allOnes
@[simp] theorem data_and_ones : data &&& 0xFFFFFFFFFFFFFFFF#64 = data := BitVec.and_allOnes

@[simp] theorem rowEdge_accepts_pack : rowEdge.accepts (packCommand op slot idx rep data) = true ↔
    op = 1 ∧ slot = 0 ∧ idx = 0 ∧ rep = 0 ∧ (data.setWidth 32).setWidth 64 = data := by
  rw [Row.accepts_pack op slot idx rep data (by decide), ← data_high_eq_zero_iff]
  simp [rowEdge, opField, repField, codeField]

@[simp] theorem rowRdAcquire_accepts_pack : rowRdAcquire.accepts (packCommand op slot idx rep data) = true ↔
    op = 2 ∧ slot = 0 ∧ idx = 0 ∧ rep = 0 ∧ data = 0 := by
  rw [Row.accepts_pack op slot idx rep data (by decide)]
  simp [rowRdAcquire, opField, repField, codeField]

@[simp] theorem rowRdBit_accepts_pack : rowRdBit.accepts (packCommand op slot idx rep data) = true ↔
    op = 3 ∧ rep = 0 ∧ data = 0 := by
  rw [Row.accepts_pack op slot idx rep data (by decide)]
  simp [rowRdBit, opField, repField, codeField]

@[simp] theorem rowRdWord_accepts_pack : rowRdWord.accepts (packCommand op slot idx rep data) = true ↔
    op = 4 ∧ BitVec.ofNat 7 (idx.toNat % 2) = idx ∧ rep = 0 ∧ data = 0 := by
  rw [Row.accepts_pack op slot idx rep data (by decide), ← idx_high_eq_zero_iff]
  simp [rowRdWord, opField, repField, codeField]

@[simp] theorem rowRdRelease_accepts_pack : rowRdRelease.accepts (packCommand op slot idx rep data) = true ↔
    op = 5 ∧ idx = 0 ∧ rep = 0 ∧ data = 0 := by
  rw [Row.accepts_pack op slot idx rep data (by decide)]
  simp [rowRdRelease, opField, repField, codeField]

@[simp] theorem rowTxStart_accepts_pack : rowTxStart.accepts (packCommand op slot idx rep data) = true ↔
    op = 6 ∧ slot = 0 ∧ idx = 0 := by
  rw [Row.accepts_pack op slot idx rep data (by decide)]
  simp [rowTxStart, opField, repField, codeField]

@[simp] theorem rowStatus_accepts_pack : rowStatus.accepts (packCommand op slot idx rep data) = true ↔
    op = 7 ∧ slot = 0 ∧ idx = 0 ∧ rep = 0 ∧ data = 0 := by
  rw [Row.accepts_pack op slot idx rep data (by decide)]
  simp [rowStatus, opField, repField, codeField]

end Rows

/-! ### Decoding and encoding -/

/-- Settles O7: the operation code leaves the command's own row, which accepts its word, and the fields of the word are the
operands. -/
theorem decodeOfEncodeIsTheCommand : Obligations.DecodeOfEncodeIsTheCommand := by
  intro i _
  cases i with
  | edge t => simp [decode, encode]
  | rdAcquire => simp [decode, encode]
  | rdBit s i => simp [decode, encode]
  | rdWord s w =>
    have hsel : w.val % 2 = w.val := Nat.mod_eq_of_lt w.isLt
    have hidx : w.val % 128 = w.val := by omega
    simp [decode, encode, hsel, hidx]
  | rdRelease s => simp [decode, encode]
  | txStart code rep => simp [decode, encode]
  | status => simp [decode, encode]

/-- Settles O8: a word that decodes is a packed word, and the row that accepts it fixes every field which is not an
operand. -/
theorem encodeOfDecodeIsTheWord : Obligations.EncodeOfDecodeIsTheWord := by
  intro w i h
  rcases decode_cases h with ⟨ha, rfl⟩ | ⟨ha, rfl⟩ | ⟨ha, rfl⟩ | ⟨ha, rfl⟩ | ⟨ha, rfl⟩ | ⟨ha, rfl⟩ | ⟨ha, rfl⟩
  all_goals obtain ⟨op, slot, idx, rep, data, rfl⟩ := exists_pack_of_accepts (by decide) ha
  · obtain ⟨rfl, rfl, rfl, rfl, hdata⟩ := (rowEdge_accepts_pack ..).mp ha
    simp [encode, hdata]
  · obtain ⟨rfl, rfl, rfl, rfl, rfl⟩ := (rowRdAcquire_accepts_pack ..).mp ha
    rfl
  · obtain ⟨rfl, rfl, rfl⟩ := (rowRdBit_accepts_pack ..).mp ha
    simp [encode]
  · obtain ⟨rfl, hidx, rfl, rfl⟩ := (rowRdWord_accepts_pack ..).mp ha
    simp [encode, hidx]
  · obtain ⟨rfl, rfl, rfl, rfl⟩ := (rowRdRelease_accepts_pack ..).mp ha
    simp [encode]
  · obtain ⟨rfl, rfl, rfl⟩ := (rowTxStart_accepts_pack ..).mp ha
    simp [encode]
  · obtain ⟨rfl, rfl, rfl, rfl, rfl⟩ := (rowStatus_accepts_pack ..).mp ha
    rfl

/-! ### Rows and operation codes -/

theorem commandTable_ops_inj :
    ∀ r ∈ commandTable, ∀ r' ∈ commandTable, opField r.matchBits = opField r'.matchBits → r = r' := by
  decide

/-- At most one row accepts a word: its operation code names the row. -/
theorem Row.accepts_unique {r r' : Row} {w : CmdWord} (hr : r ∈ commandTable) (hr' : r' ∈ commandTable)
    (h : r.accepts w = true) (h' : r'.accepts w = true) : r = r' := by
  apply commandTable_ops_inj r hr r' hr'
  rw [← opField_of_accepts h (commandTable_masks_op r hr), ← opField_of_accepts h' (commandTable_masks_op r' hr')]

theorem decode_command_iff (w : CmdWord) : (∃ i, decode w = .command i) ↔ ∃ r ∈ commandTable, r.accepts w = true := by
  have hillegal := decode_illegal_iff w
  constructor
  · rintro ⟨i, hi⟩
    by_contra hnone
    obtain ⟨e, he⟩ := hillegal.mpr (by simpa using hnone)
    simp [hi] at he
  · rintro ⟨r, hr, ha⟩
    cases hd : decode w with
    | command i => exact ⟨i, rfl⟩
    | illegal e => simp [hillegal.mp ⟨e, hd⟩ r hr] at ha

/-- The row that accepts a legal word bears the name of its command. -/
theorem mnemonic_of_decode {w : CmdWord} {i : Instr} (h : decode w = .command i) :
    ∃ r ∈ commandTable, r.accepts w = true ∧ r.mnemonic = i.mnemonic := by
  rcases decode_cases h with ⟨ha, rfl⟩ | ⟨ha, rfl⟩ | ⟨ha, rfl⟩ | ⟨ha, rfl⟩ | ⟨ha, rfl⟩ | ⟨ha, rfl⟩ | ⟨ha, rfl⟩
  all_goals exact ⟨_, by decide, ha, rfl⟩

/-- Settles O9: the decoder tries the rows of the table, whose operation codes differ, and answers with the command of the
row that accepts. -/
theorem legalWordsMatchExactlyOneRow : Obligations.LegalWordsMatchExactlyOneRow := by
  intro w
  simp only [← Row.accepts_iff]
  exact ⟨decode_command_iff w, fun r hr r' hr' => Row.accepts_unique hr hr', fun i => mnemonic_of_decode⟩

theorem decode_of_no_row {w : CmdWord} (h : ∀ r ∈ commandTable, r.accepts w = false) :
    decode w = .illegal (illegalReason w) := by
  simp only [commandTable, List.forall_mem_cons] at h
  simp [decode, h]

theorem commandTable_ops : ∀ r ∈ commandTable, opField r.matchBits ≠ 0#4 ∧ opField r.matchBits < 8#4 := by decide

/-- Settles O10: no row has a reserved operation code. -/
theorem reservedOpsAreIllegal : Obligations.ReservedOpsAreIllegal := by
  intro w hop
  have hrows (r : Row) (hr : r ∈ commandTable) : r.accepts w = false := by
    apply Row.not_accepts hr
    intro heq
    have := commandTable_ops r hr
    rw [← heq] at this
    bv_omega
  rw [decode_of_no_row hrows, illegalReason, if_pos]
  exact hop

/-- Settles O11: each word by evaluation. -/
theorem wordsOfTheSpecDecode : Obligations.WordsOfTheSpecDecode := by
  unfold Obligations.WordsOfTheSpecDecode
  decide

end Sys2Proof

namespace Sys2Proof.Machine

/-! ### Assembly -/

theorem symbolDurations_length (x : SymbolTiming) : (symbolDurations x).length = 2 := rfl

theorem bitDurations_length (tm : TimingModel) (b : Bool) : (bitDurations tm b).length = 2 := by
  cases b <;> rfl

/-- `CODE64` is 65 symbols of two phases each (R83). -/
theorem code64Durations_length (tm : TimingModel) (c : U64) : (code64Durations tm c).length = 130 := by
  simp [code64Durations, symbolDurations_length, List.length_flatMap, bitDurations_length]

/-- A program of one line is that line's events. -/
theorem assemble_singleton {tm : TimingModel} {T T' : U32} {l : AsmLine} {es : List Event}
    (h : assembleLine tm T l = some (T', es)) : assemble tm T [l] = some es := by
  simp [assemble, h]

@[simp] theorem assembleDurations_length (T : U32) (ds : List U32) :
    (assembleDurations T ds).2.length = ds.length := by
  simp [assembleDurations]

/-- The k-th event of `DUR d` lines is the EDGE at the cursor plus the durations up to the k-th. -/
theorem assembleDurations_getElem (T : U32) (ds : List U32) (k : Nat) (h : k < (assembleDurations T ds).2.length) :
    (assembleDurations T ds).2[k] = commandEvent (.edge (T + (ds.take (k + 1)).sum)) := by
  have htime := timesOf_getElem? T ds k (by simpa using h)
  rw [List.getElem_eq_iff]
  simp [assembleDurations, htime]

theorem assemble_code64 (tm : TimingModel) (T : U32) {c : Nat} (hc : c < 2 ^ 64) :
    assemble tm T [.code64 c] = some (assembleDurations T (code64Durations tm (BitVec.ofNat 64 c))).2 :=
  assemble_singleton (if_pos hc)

/-- Settles O59: the line gives one EDGE for each duration, at the times of `timesOf_getElem?`. -/
theorem code64AssemblesTo130Edges : Obligations.Code64AssemblesTo130Edges := by
  intro tm T c hc
  refine ⟨_, assemble_code64 tm T hc, ?_, fun k hk => assembleDurations_getElem T _ k hk⟩
  rw [assembleDurations_length, code64Durations_length]

/-- A line that is an assembly error fails the program, whatever stands before it. -/
theorem assemble_append_of_error {tm : TimingModel} {l : AsmLine} (h : ∀ T, assembleLine tm T l = none)
    (before after : List AsmLine) (T : U32) : assemble tm T (before ++ l :: after) = none := by
  induction before generalizing T with
  | nil => simp [assemble, h T]
  | cons b bs ih =>
    simp only [List.cons_append, assemble]
    split
    · rfl
    · simp [ih]

/-- Settles O60: an operand out of range is an error of its line at every cursor. -/
theorem operandsOutOfRangeAreAssemblyErrors : Obligations.OperandsOutOfRangeAreAssemblyErrors := by
  intro tm T a before after
  constructor
  · intro hout
    exact assemble_append_of_error (fun T => by simp [assembleLine, AsmCommand.toInstr?, hout]) before after T
  · intro hin
    refine ⟨a.operands, a.ofInstr_operands hin, assemble_singleton (T' := T) ?_⟩
    simp [assembleLine, AsmCommand.toInstr?, hin, commandEvent]

end Sys2Proof.Machine

namespace Sys2Proof.Machine

/-! PROOFS of the statements on the PulseRing (spec 41_pulse_ring.md): when a command records a fault, EDGE on the queue
of committed frames and the frame in progress, the consumer's reads of the head slot and its release. -/

/-! ### Recorded faults -/

/-- A command records exactly the fault whose condition holds (R201, R203), and at most one. -/
theorem exec_fault {i : Instr} {s t : State} (h : exec i s = .next t) : t.fault = s.fault ++
    (if consumerFaults s i then [⟨.consumerProtocol, encode i⟩]
      else if txFaults s i then [⟨.txBusy, encode i⟩] else []) := by
  cases i with
  | edge x => rw [exec_edge] at h; cases h; simp [consumerFaults, txFaults]
  | rdAcquire => rw [exec_rdAcquire] at h; cases h; simp [consumerFaults, txFaults]
  | rdBit k j => rw [exec_rdBit] at h; cases h; cases hk : s.ring.isHead k <;> simp [consumerFaults, txFaults, hk]
  | rdWord k w => rw [exec_rdWord] at h; cases h; cases hk : s.ring.isHead k <;> simp [consumerFaults, txFaults, hk]
  | rdRelease k =>
    rw [exec_rdRelease] at h; cases h
    by_cases hfree : (s.ring.slots.frame k).size = 0#8
    · simp [consumerFaults, txFaults, hfree]
    · cases hk : s.ring.isHead k <;> simp [consumerFaults, txFaults, hfree, hk]
  | txStart c r =>
    rw [exec_txStart] at h; cases h
    cases hb : s.enc.busy
    · by_cases hr : r = 0#8 <;> simp [consumerFaults, txFaults, hb, hr]
    · simp [consumerFaults, txFaults, hb]
  | status => rw [exec_status] at h; cases h; simp [consumerFaults, txFaults]

@[simp] theorem consumerFaults_accept (s : State) (p : Port) (rest : List Event) (i : Instr) :
    consumerFaults (s.accept p rest) i = consumerFaults s i := by cases i <;> rfl

@[simp] theorem txFaults_accept (s : State) (p : Port) (rest : List Event) (i : Instr) :
    txFaults (s.accept p rest) i = txFaults s i := by cases i <;> rfl

/-- Only the tx port issues TX_START (R71), so the TxCaller's hold rules TX_BUSY out. -/
theorem txFaults_of_hold {s : State} {p : Port} {w : CmdWord} {rest : List Event} {i : Instr} (h : s.txCallerKeepsHold)
    (hs : s.schedule = .command p w :: rest) (hp : p.mayIssue i = true) : txFaults s i = false := by
  cases i with
  | txStart c r =>
    obtain rfl : p = .tx := by simpa [Port.mayIssue] using hp
    exact h w rest hs
  | edge _ | rdAcquire | rdBit _ _ | rdWord _ _ | rdRelease _ | status => rfl

/-- Settles O40: of the moves other than reset only a command can record a fault, and the two duties exclude the two
conditions of `exec_fault`. -/
theorem dutifulAgentsNeverFault : Obligations.DutifulAgentsNeverFault := by
  intro s t hconsumer hcaller hnr hs
  rcases step_cases hs with ⟨-, rfl⟩ | ⟨p, w, rest, e, -, -, rfl⟩ | ⟨p, w, rest, i, hsched, hd, hp, hx⟩
    | ⟨rest, -, -, rfl⟩ | ⟨rest, -, rfl⟩ | ⟨le, bits, rest, hsched, -⟩
  · split <;> rfl
  · rfl
  · have hc := hconsumer p w rest i hsched hd
    have ht := txFaults_of_hold hcaller hsched hp
    simpa [hc, ht] using exec_fault hx
  · rfl
  · split <;> rfl
  · simp [State.resetPending, hsched] at hnr

/-! ### EDGE on the queue -/

section edges

variable {tm : TimingModel} {dec : Decoder} {r : Ring} {x : U32}

theorem edgeEffect_of_full (h : r.full = true) : edgeEffect tm dec r x = (⟨.waitingForSync, x⟩, r) := by
  simp [edgeEffect, r.acquireWriteSlot_eq, h]

theorem edgeEffect_of_syncHigh (h : r.full = false) (hw : inWin (x - dec.lastEdge) tm.sync.high = true) :
    edgeEffect tm dec r x = (⟨.waitingForLowSync, x⟩, r.commitWriteSlot r.wr) := by
  simp [edgeEffect, r.acquireWriteSlot_eq, h, Decoder.duration, hw]

theorem edgeEffect_of_not_syncHigh (h : r.full = false) (hw : inWin (x - dec.lastEdge) tm.sync.high = false) :
    edgeEffect tm dec r x = (⟨(classify tm dec.state (x - dec.lastEdge)).1, x⟩,
      r.appendOption r.wr (classify tm dec.state (x - dec.lastEdge)).2) := by
  simp [edgeEffect, r.acquireWriteSlot_eq, h, Decoder.duration, hw]

end edges

theorem Ring.commitWriteSlot_eq (r : Ring) (k : SlotIdx) :
    r.commitWriteSlot k = { r with wr := if (r.slots.frame k).size = 0 then r.wr else r.wr + 1 } := by
  by_cases h : (r.slots.frame k).size = 0
  · rw [r.commitWriteSlot_of_empty k h, if_pos h]
  · rw [r.commitWriteSlot_of_nonempty k h, if_neg h]

theorem Ring.inProgress_eq_nil (r : Ring) : r.inProgress = [] ↔ (r.slots.frame r.wr).size = 0#8 :=
  Frame.content_eq_nil _

/-- CommitWriteSlot on the queue (R101): a frame in progress that holds bits goes to the back. -/
theorem Ring.queue_commitWriteSlot {r : Ring} (hnf : r.full = false) :
    (r.commitWriteSlot r.wr).queue = if r.inProgress = [] then r.queue else r.queue ++ [r.inProgress] := by
  by_cases hempty : (r.slots.frame r.wr).size = 0#8
  · rw [r.commitWriteSlot_of_empty _ hempty, if_pos (r.inProgress_eq_nil.mpr hempty)]
  · rw [r.commitWriteSlot_of_nonempty _ hempty, Ring.queue_advance hnf, if_neg (mt r.inProgress_eq_nil.mp hempty)]

/-- After CommitWriteSlot the write slot is empty: it was before, or it is the free slot after it (INV3). -/
theorem Ring.Inv.inProgress_commitWriteSlot {r : Ring} (h : r.Inv) (hnf : r.full = false) :
    (r.commitWriteSlot r.wr).inProgress = [] := by
  rw [Ring.inProgress_eq_nil]
  by_cases hempty : (r.slots.frame r.wr).size = 0#8
  · rwa [r.commitWriteSlot_of_empty _ hempty]
  · rw [r.commitWriteSlot_of_nonempty _ hempty]
    exact h.next_empty hnf

/-- Append on the frame in progress (R141): it grows by the bit, up to 128 bits. -/
theorem Ring.Inv.inProgress_appendOption {r : Ring} (h : r.Inv) (b : Option Bool) :
    (r.appendOption r.wr b).inProgress = (r.inProgress ++ b.toList).take 128 := by
  have hlen : r.inProgress.length ≤ 128 := (Frame.content_length _).trans_le h.write_size
  cases b with
  | none => rw [Ring.appendOption_none, Option.toList_none, List.append_nil, List.take_of_length_le hlen]
  | some b =>
    rw [Ring.inProgress, Ring.appendOption_wr, Ring.appendOption_some, Memory.frame_append, if_pos rfl]
    exact Frame.content_append _ b h.write_size

/-- Settles O43: in each of the three cases of R140, EDGE leaves the ring, commits the write slot or appends to it. -/
theorem edgeRefinesAQueue : Obligations.EdgeRefinesAQueue := by
  intro s u t hs h
  rw [exec_edge] at h
  cases h
  rw [State.respond_ring, State.withRing_ring]
  refine ⟨fun hfull => ?_, fun hnf hw => ?_, fun hnf hw => ?_⟩
  · rw [edgeEffect_of_full hfull]
    exact ⟨rfl, rfl⟩
  · rw [edgeEffect_of_syncHigh hnf hw]
    exact ⟨Ring.queue_commitWriteSlot hnf, hs.ring.inProgress_commitWriteSlot hnf⟩
  · rw [edgeEffect_of_not_syncHigh hnf hw]
    exact ⟨Ring.queue_appendOption _, hs.ring.inProgress_appendOption _⟩

/-- Settles O25: a sync-high commits the write slot. -/
theorem edgeOnSyncHigh : Obligations.EdgeOnSyncHigh := by
  intro s t hne hw
  rw [exec_edge, edgeEffect_of_syncHigh (s.ring.full_eq_false_iff.mpr hne) hw, Ring.commitWriteSlot_eq]
  rfl

/-! ### The answer of RD_ACQUIRE -/

section acquire

variable (k : SlotIdx) (z : U8)

theorem acquireResponse_valid : (acquireResponse k z).getLsbD 0 = true := acquireResponse_getLsbD k z 0 (by decide)

theorem acquireResponse_slot : ((acquireResponse k z).extractLsb' 1 3).toNat = k.val := by
  have hslot : (acquireResponse k z).extractLsb' 1 3 = BitVec.ofNat 3 k.val := by
    apply BitVec.eq_of_getLsbD_eq
    intro j hj
    rw [BitVec.getLsbD_extractLsb', acquireResponse_getLsbD k z _ (by omega), if_neg (by omega), if_pos (by omega),
      Nat.add_sub_cancel_left, decide_eq_true hj, Bool.true_and]
  rw [hslot, BitVec.toNat_ofNat, Nat.mod_eq_of_lt k.isLt]

theorem acquireResponse_size : (acquireResponse k z).extractLsb' 4 8 = z := by
  apply BitVec.eq_of_getLsbD_eq
  intro j hj
  rw [BitVec.getLsbD_extractLsb', acquireResponse_getLsbD k z _ (by omega), if_neg (by omega), if_neg (by omega),
    Nat.add_sub_cancel_left, decide_eq_true hj, Bool.true_and]

theorem acquireResponse_high : (acquireResponse k z).extractLsb' 12 52 = 0#52 := by
  apply BitVec.eq_of_getLsbD_eq
  intro j hj
  rw [BitVec.getLsbD_extractLsb', acquireResponse_getLsbD k z _ (by omega), if_neg (by omega), if_neg (by omega),
    BitVec.getLsbD_of_ge z _ (by omega), Bool.and_false, BitVec.getLsbD_zero]

end acquire

theorem exec_rdAcquire_of_nonempty {s : State} (h : s.ring.rd ≠ s.ring.wr) : exec .rdAcquire s
    = .next (s.respond (acquireResponse s.ring.rd (s.ring.slots.frame s.ring.rd).size)) := by
  rw [exec_rdAcquire, if_neg h]

/-- Settles O31: the fields of `acquireResponse`. -/
theorem acquireAnswersTheHeadSlot : Obligations.AcquireAnswersTheHeadSlot := by
  intro s
  refine ⟨_, exec_rdAcquire s, fun hempty => if_pos hempty, fun hne => ?_⟩
  rw [if_neg hne]
  exact ⟨acquireResponse_valid _ _, acquireResponse_slot _ _, acquireResponse_size _ _, acquireResponse_high _ _⟩

/-! ### Reads of the head slot -/

theorem Ring.isHead_rd {r : Ring} (h : r.rd ≠ r.wr) : r.isHead r.rd = true := (r.isHead_iff _).mpr ⟨h, rfl⟩

theorem bitResponse_eq (b : Bool) : bitResponse b = if b then 1#64 else 0#64 := by cases b <;> rfl

/-- Settles O32: the answer is the visible bit, which is the stored one below the size. -/
theorem readBitOfTheHeadFrame : Obligations.ReadBitOfTheHeadFrame := by
  intro s i hne
  rw [exec_rdBit_of_head (Ring.isHead_rd hne), bitResponse_eq, Frame.visibleBit]
  simp only [Bool.and_eq_true, decide_eq_true_eq]
  rfl

/-- Settles O33: the answer is the visible word, bit by bit. -/
theorem readWordOfTheHeadFrame : Obligations.ReadWordOfTheHeadFrame := by
  intro s w hne
  exact ⟨_, exec_rdWord_of_head (Ring.isHead_rd hne) w, Frame.visibleWord_getLsbD _ w⟩

/-! ### RD_RELEASE -/

section release

variable {s : State} {k : SlotIdx} (h : (s.ring.slots.frame k).size ≠ 0)
include h

theorem exec_rdRelease_of_head (hk : s.ring.isHead k = true) :
    exec (.rdRelease k) s = .next ((s.withRing (s.ring.releaseHead k)).respond 0) := by
  rw [exec_rdRelease, if_neg h, if_pos hk]

theorem exec_rdRelease_of_not_head (hk : s.ring.isHead k = false) :
    exec (.rdRelease k) s = .next (s.raiseFault .consumerProtocol (.rdRelease k)) := by
  rw [exec_rdRelease, if_neg h, hk, if_neg Bool.false_ne_true]

end release

/-- Settles O36: the three answers of RD_RELEASE, in the order of R208. -/
theorem releaseOfASlot : Obligations.ReleaseOfASlot := by
  intro s k
  refine ⟨exec_rdRelease_of_free, fun hsize hne hk => ?_, fun hsize hk => ⟨0, ?_⟩⟩
  · exact exec_rdRelease_of_head hsize ((s.ring.isHead_iff k).mpr ⟨hne, hk⟩)
  · exact exec_rdRelease_of_not_head hsize ((s.ring.isHead_eq_false_iff k).mpr hk)

/-! ### The consumer on the queue -/

/-- A queue with a front is that of a ring that is not empty, its front the frame of the head slot. -/
theorem Ring.queue_eq_cons {r : Ring} {f : List Bool} {fs : List (List Bool)} (h : r.queue = f :: fs) :
    r.rd ≠ r.wr ∧ f = (r.slots.frame r.rd).content ∧ (r.releaseHead r.rd).queue = fs := by
  have hne : r.rd ≠ r.wr := by
    rw [Ne, ← r.buffered_eq_zero_iff, ← r.queue_length, h]
    exact Nat.succ_ne_zero _
  rw [Ring.queue_release hne] at h
  obtain ⟨hfront, hrest⟩ := List.cons_eq_cons.mp h
  exact ⟨hne, hfront.symm, hrest⟩

/-- The head slot is committed, so it holds bits (INV2). -/
theorem Ring.Inv.head_size_ne_zero {r : Ring} (h : r.Inv) (hne : r.rd ≠ r.wr) : (r.slots.frame r.rd).size ≠ 0 := by
  obtain ⟨hpos, -⟩ := h.committed_size r.rd ((r.committed_iff _).mpr (slot_head_committed _ _ hne))
  intro hzero
  rw [hzero] at hpos
  exact absurd hpos (by decide)

theorem Ring.releaseHead_inProgress {r : Ring} (hne : r.rd ≠ r.wr) :
    (r.releaseHead r.rd).inProgress = r.inProgress := by
  rw [Ring.inProgress, Ring.releaseHead_wr, Ring.releaseHead, Memory.frame_clear, if_neg hne.symm, Ring.inProgress]

/-- RD_WORD shows the frame as the sequence of its bits, with 0 beyond its end (R104). -/
theorem Frame.visibleWord_eq_content_getD (f : Frame) (w : WordSel) (j : Nat) (hj : j < 64) :
    (f.visibleWord w).getLsbD j = f.content.getD (64 * w.val + j) false := by
  rw [f.visibleWord_getLsbD w j hj, List.getD_eq_getElem?_getD, f.content_getElem?]
  by_cases hin : 64 * w.val + j < f.size.toNat <;> simp [hin]

/-- Settles O44: the front of the queue is the frame of the head slot, which the invariant says holds bits. -/
theorem consumerWorksOnTheQueueHead : Obligations.ConsumerWorksOnTheQueueHead := by
  intro s f fs hs hq
  obtain ⟨hne, rfl, hrest⟩ := Ring.queue_eq_cons hq
  have hhead := Ring.isHead_rd hne
  refine ⟨⟨_, exec_rdAcquire_of_nonempty hne, ?_⟩, fun w => ⟨_, exec_rdWord_of_head hhead w, rfl, ?_⟩,
    ⟨_, exec_rdRelease_of_head (hs.ring.head_size_ne_zero hne) hhead, rfl, hrest, Ring.releaseHead_inProgress hne⟩⟩
  · rw [State.respond_resp, acquireResponse_size, Frame.content_length]
    exact ⟨acquireResponse_valid _ _, acquireResponse_slot _ _, rfl⟩
  · exact Frame.visibleWord_eq_content_getD _ w

end Sys2Proof.Machine

namespace Sys2Proof.Machine

/-! PROOFS of the statements on the timing model (spec 42_timing_model.md): the window test, the derivation of the bounds,
the default windows, and how long a call lasts at the defaults. -/

/-! ### Windows and their bounds -/

/-- The window test on numbers (R132). -/
theorem inWin_iff (d : U32) (w : PhaseTiming) :
    inWin d w = true ↔ w.min.toNat < d.toNat ∧ d.toNat < w.max.toNat := by
  simp [inWin, BitVec.lt_def]

/-- Settles O18: no number lies strictly between two bounds that differ by at most 1. -/
theorem windowTestIsStrict : Obligations.WindowTestIsStrict := by
  refine ⟨inWin_iff, fun d w hempty => ?_⟩
  rw [← Bool.not_eq_true, inWin_iff]
  omega

theorem deriveBounds_eq_some_iff (nom dmin dmax lo hi : U32) : deriveBounds nom dmin dmax = some (lo, hi) ↔
    (dmin ≤ nom ∧ nom.toNat + dmax.toNat < 2 ^ 32) ∧ nom - dmin = lo ∧ nom + dmax = hi := by
  simp [deriveBounds]

theorem deriveBounds_eq_none_iff (nom dmin dmax : U32) :
    deriveBounds nom dmin dmax = none ↔ ¬(dmin ≤ nom ∧ nom.toNat + dmax.toNat < 2 ^ 32) := by
  simp [deriveBounds]

/-- Settles O19: the condition of `deriveBounds` says that neither the subtraction nor the addition wraps. -/
theorem deriveBoundsIsExactOrRejected : Obligations.DeriveBoundsIsExactOrRejected := by
  intro nom dmin dmax
  constructor
  · intro lo hi h
    obtain ⟨⟨hmin, hmax⟩, rfl, rfl⟩ := (deriveBounds_eq_some_iff ..).mp h
    refine ⟨?_, BitVec.toNat_add_of_lt hmax⟩
    rw [BitVec.toNat_sub_of_le hmin]
    exact Nat.sub_add_cancel hmin
  · rw [deriveBounds_eq_none_iff, BitVec.le_def]
    omega

/-- A window whose bounds are the numbers `lo` and `hi` accepts the integers from `lo + 1` to `hi - 1`. -/
theorem inWin_iff_of_bounds {w : PhaseTiming} {lo hi : Nat} (hlo : w.min.toNat = lo) (hhi : w.max.toNat = hi + 1)
    (d : U32) : inWin d w = true ↔ lo + 1 ≤ d.toNat ∧ d.toNat ≤ hi := by
  rw [inWin_iff, hlo, hhi, Nat.lt_succ_iff, Nat.succ_le_iff]

/-- Settles O20: the construction is computed, and each range is that of the window's two bounds. -/
theorem defaultWindows : Obligations.DefaultWindows :=
  ⟨by decide, fun d => ⟨inWin_iff_of_bounds rfl rfl d, inWin_iff_of_bounds rfl rfl d, inWin_iff_of_bounds rfl rfl d,
    inWin_iff_of_bounds rfl rfl d, inWin_iff_of_bounds rfl rfl d, inWin_iff_of_bounds rfl rfl d⟩⟩

/-! ### How long a call lasts -/

/-- How long a list of segments lasts, as a number (no wrap). -/
def totalDuration (gs : List Segment) : Nat := (gs.map fun g => g.dur.toNat).sum

theorem totalDuration_append (gs hs : List Segment) :
    totalDuration (gs ++ hs) = totalDuration gs + totalDuration hs := by
  simp [totalDuration]

/-- Symbols that all last `n` last `n` times their number. -/
theorem totalDuration_flatMap_symbolSegments {xs : List SymbolTiming} {n : Nat}
    (h : ∀ x ∈ xs, totalDuration (symbolSegments x) = n) :
    totalDuration (xs.flatMap symbolSegments) = xs.length * n := by
  induction xs with
  | nil => simp [totalDuration]
  | cons x xs ih =>
    obtain ⟨hx, hxs⟩ := List.forall_mem_cons.mp h
    rw [List.flatMap_cons, totalDuration_append, hx, ih hxs, List.length_cons, Nat.succ_mul, Nat.add_comm]

/-- A call lasts `rep` times as long as one repeat. -/
theorem totalDuration_txSegments (tm : TimingModel) (code : U64) (rep : Nat) :
    totalDuration (txSegments tm code rep) = rep * totalDuration (repeatSegments tm code) := by
  induction rep with
  | zero => simp [txSegments, totalDuration]
  | succ n ih =>
    have hsucc : txSegments tm code (n + 1) = repeatSegments tm code ++ txSegments tm code n := by
      simp [txSegments, List.replicate_succ]
    rw [hsucc, totalDuration_append, ih, Nat.succ_mul, Nat.add_comm]

/-- At the defaults both data symbols last 800 µs (R130). -/
theorem totalDuration_dataSymbol_default (b : Bool) :
    totalDuration (symbolSegments (dataSymbol Config.defaultTM b)) = 800 := by
  cases b <;> rfl

/-- One repeat at the defaults: the sync symbol's 5800 µs and 64 data symbols (R137). -/
theorem totalDuration_repeatSegments_default (code : U64) :
    totalDuration (repeatSegments Config.defaultTM code) = 57000 := by
  have hsync : totalDuration (symbolSegments Config.defaultTM.sync) = 5800 := rfl
  have hdata : ∀ x ∈ (List.range 64).map fun j => dataSymbol Config.defaultTM (code.getLsbD j),
      totalDuration (symbolSegments x) = 800 := by
    intro x hx
    obtain ⟨j, -, rfl⟩ := List.mem_map.mp hx
    exact totalDuration_dataSymbol_default _
  rw [repeatSegments, repeatSymbols, List.flatMap_cons, totalDuration_append, hsync,
    totalDuration_flatMap_symbolSegments hdata, List.length_map, List.length_range]

/-- Settles O54: every repeat lasts 57000 µs, because the two data symbols last equally long. -/
theorem callLasts57000PerRepeat : Obligations.CallLasts57000PerRepeat := by
  intro code rep
  have hcall := totalDuration_txSegments Config.defaultTM code rep
  rwa [totalDuration_repeatSegments_default] at hcall

end Sys2Proof.Machine

namespace Sys2Proof.Machine

/-! PROOFS of the statements on the PulseDecoder (spec 43_pulse_decoder.md): Append, EDGE on a full ring, by the state
table and right after reset, its frame, its dependence on the duration only, the sync symbol and a clean burst. -/

/-! ### Append -/

/-- Read after Append over the whole storage (R141): the one bit written is at the size, below capacity. -/
theorem Memory.read_append (m : Memory) (k j : SlotIdx) (b : Bool) (n : Nat) : (m.append k b).read j n =
    if j = k ∧ n = (m.frame k).size.toNat ∧ n < 128 then b else m.read j n := by
  unfold Memory.read
  rw [m.frame_append]
  by_cases hj : j = k
  · subst hj
    rw [if_pos rfl]
    by_cases hlt : (m.frame j).size.toNat < 128
    · rw [Frame.append_read _ b n hlt]
      exact if_congr ⟨fun h => ⟨rfl, h, h ▸ hlt⟩, fun ⟨_, h, _⟩ => h⟩ rfl rfl
    · rw [Frame.append_of_ge _ b (Nat.not_lt.mp hlt), if_neg]
      rintro ⟨-, rfl, h⟩
      exact hlt h
  · rw [if_neg hj, if_neg fun ⟨h, _⟩ => hj h]

/-- Settles O27: the laws of Append on one frame, for the frame of slot `k`; no other slot is written. -/
theorem appendWritesAtTheSize : Obligations.AppendWritesAtTheSize := by
  intro m k b
  refine ⟨fun hlt => ⟨?_, fun n => ?_, fun j hj => ?_⟩, fun hge => ?_⟩
  · rw [m.frame_append, if_pos rfl, Frame.append_size _ b hlt]
  · rw [Memory.read, m.frame_append, if_pos rfl, Frame.append_read _ b n hlt]
    rfl
  · rw [m.frame_append, if_neg hj]
  · rw [Memory.append, Frame.append_of_ge _ b hge, m.setFrame_frame]

/-! ### EDGE on a full ring -/

theorem exec_edge_of_full {s : State} (h : s.ring.full = true) (t : U32) :
    exec (.edge t) s = .next ((s.withDec ⟨.waitingForSync, t⟩).respond 0) := by
  rw [exec_edge, edgeEffect_of_full h]
  rfl

/-- Settles O23: on a full ring the order of R140 ends at step 1. -/
theorem edgeOnFullRing : Obligations.EdgeOnFullRing :=
  fun s t h => exec_edge_of_full (s.ring.full_iff.mpr h) t

/-- Settles O24, by induction on the edges before the last: each leaves the ring full. -/
theorem fullRingDropsWholeBursts : Obligations.FullRingDropsWholeBursts := by
  intro s ts t hfull
  induction ts generalizing s with
  | nil => exact ⟨_, execAll_cons _ [] s _ (exec_edge_of_full hfull t), rfl, rfl, rfl, rfl, rfl⟩
  | cons x xs ih =>
    obtain ⟨u, hu, hsame⟩ := ih ((s.withDec ⟨.waitingForSync, x⟩).respond 0) hfull
    exact ⟨u, (execAll_cons _ _ s _ (exec_edge_of_full hfull x)).trans hu, hsame⟩

/-! ### EDGE by the state table -/

/-- One row of R142: the table's next decoder state and its append. -/
theorem exec_edge_of_classify {s : State} {t : U32} {st : DecState} {b : Option Bool} (hf : s.ring.full = false)
    (hw : inWin (t - s.dec.lastEdge) s.tm.sync.high = false)
    (hc : classify s.tm s.dec.state (t - s.dec.lastEdge) = (st, b)) : exec (.edge t) s =
      .next (((s.withDec ⟨st, t⟩).withRing (s.ring.appendOption s.ring.wr b)).respond 0) := by
  rw [exec_edge, edgeEffect_of_not_syncHigh hf hw, hc]

/-- Settles O26: each row is one branch of `classify`. -/
theorem edgeStateTable : Obligations.EdgeStateTable := by
  intro s t hne hw
  have hf := s.ring.full_eq_false_iff.mpr hne
  have keeps {st : DecState} (hc : classify s.tm s.dec.state (t - s.dec.lastEdge) = (st, none)) :=
    exec_edge_of_classify hf hw hc
  have appends {st : DecState} {b : Bool} (hc : classify s.tm s.dec.state (t - s.dec.lastEdge) = (st, some b)) :=
    exec_edge_of_classify hf hw hc
  refine ⟨fun h => keeps ?_, fun h hd => keeps ?_, fun h hd => keeps ?_, fun h hd => keeps ?_,
    fun h hd hd' => keeps ?_, fun h hd hd' => keeps ?_, fun h hd => appends ?_, fun h hd => keeps ?_,
    fun h hd => appends ?_, fun h hd => keeps ?_⟩
  · simp [classify, h]
  · simp [classify, h, hd]
  · simp [classify, h, hd]
  · simp [classify, h, hd]
  · simp [classify, h, hd, hd']
  · simp [classify, h, hd, hd']
  · simp [classify, h, hd]
  · simp [classify, h, hd]
  · simp [classify, h, hd]
  · simp [classify, h, hd]

/-- After reset the ring is empty, its write slot too, and the decoder waits for a sync-high (R34). -/
theorem edgeEffect_atReset (tm : TimingModel) (le t : U32) (bits : Vector SlotBits 8) :
    edgeEffect tm ⟨.waitingForSync, le⟩ (State.atReset tm le bits).ring t =
      (⟨if inWin (t - le) tm.sync.high then .waitingForLowSync else .waitingForSync, t⟩,
        (State.atReset tm le bits).ring) := by
  have hf : (State.atReset tm le bits).ring.full = false := rfl
  cases hw : inWin (t - le) tm.sync.high with
  | false => exact edgeEffect_of_not_syncHigh (dec := ⟨.waitingForSync, le⟩) hf hw
  | true =>
    rw [edgeEffect_of_syncHigh (dec := ⟨.waitingForSync, le⟩) hf hw,
      Ring.commitWriteSlot_of_empty _ _ (State.atReset_size tm le bits _), if_pos rfl]

/-- Settles O6: an edge after reset leaves the ring as it is. -/
theorem firstEdgeAfterReset : Obligations.FirstEdgeAfterReset := by
  intro tm le t bits
  rw [exec_edge, State.atReset_tm, State.atReset_dec, edgeEffect_atReset]
  rfl

/-! ### The frame of EDGE, and its dependence on the duration -/

@[simp] theorem edgeEffect_lastEdge (tm : TimingModel) (dec : Decoder) (r : Ring) (x : U32) :
    (edgeEffect tm dec r x).1.lastEdge = x := by
  rcases edgeEffect_cases tm dec r x with ⟨-, he⟩ | ⟨-, -, he⟩ | ⟨-, -, he⟩ <;> rw [he]

theorem Ring.appendOption_read (r : Ring) (k j : SlotIdx) (b : Option Bool) (n : Nat) :
    (r.appendOption k b).slots.read j n =
      if j = k ∧ n = (r.slots.frame k).size.toNat ∧ n < 128 then b.getD (r.slots.read j n) else r.slots.read j n := by
  cases b with
  | none => rw [Ring.appendOption_none, Option.getD_none, ite_self]
  | some b => rw [Ring.appendOption_some, r.slots.read_append, Option.getD_some]

theorem edgeEffect_frame_of_ne (tm : TimingModel) (dec : Decoder) (r : Ring) (x : U32) {k : SlotIdx} (hk : k ≠ r.wr) :
    (edgeEffect tm dec r x).2.slots.frame k = r.slots.frame k := by
  rcases edgeEffect_cases tm dec r x with ⟨-, he⟩ | ⟨-, -, he⟩ | ⟨-, -, he⟩ <;> rw [he]
  · rw [Ring.commitWriteSlot_slots]
  · exact r.appendOption_frame_of_ne _ hk

/-- The one bit that an edge can write is the one that the table appends, at the write slot's size. -/
theorem edgeEffect_read (tm : TimingModel) (dec : Decoder) (r : Ring) (x : U32) (k : SlotIdx) (n : Nat) :
    (edgeEffect tm dec r x).2.slots.read k n =
      if k = r.wr ∧ n = (r.slots.frame r.wr).size.toNat ∧ n < 128 ∧ r.full = false
          ∧ inWin (x - dec.lastEdge) tm.sync.high = false
      then (classify tm dec.state (x - dec.lastEdge)).2.getD (r.slots.read k n)
      else r.slots.read k n := by
  rcases edgeEffect_cases tm dec r x with ⟨hf, he⟩ | ⟨hf, hw, he⟩ | ⟨hf, hw, he⟩ <;> rw [he]
  · simp [hf]
  · simp [hw]
  · simp [hf, hw, Ring.appendOption_read]

/-- Settles O28: EDGE writes the decoder registers and what `edgeEffect` changes in the ring. -/
theorem edgeFrame : Obligations.EdgeFrame := by
  intro s t
  refine ⟨_, exec_edge t s, edgeEffect_lastEdge .., rfl, rfl, rfl, rfl, rfl, rfl, rfl, rfl, edgeEffect_rd .., ?_, ?_⟩
  · exact fun k hk => edgeEffect_frame_of_ne _ _ _ _ hk
  · exact edgeEffect_read _ _ _ _

/-- An edge reads its timestamp only in the duration (R145). -/
theorem edgeEffect_shift (tm : TimingModel) (st : DecState) (r : Ring) (le x k : U32) :
    edgeEffect tm ⟨st, le + k⟩ r (x + k) =
      (⟨(edgeEffect tm ⟨st, le⟩ r x).1.state, x + k⟩, (edgeEffect tm ⟨st, le⟩ r x).2) := by
  have hd : x + k - (le + k) = x - le := add_sub_add_right_eq_sub x le k
  rcases edgeEffect_cases tm ⟨st, le⟩ r x with ⟨hf, he⟩ | ⟨hf, hw, he⟩ | ⟨hf, hw, he⟩ <;> rw [he]
  · exact edgeEffect_of_full hf
  · exact edgeEffect_of_syncHigh hf (by rwa [hd])
  · rw [edgeEffect_of_not_syncHigh hf (by rwa [hd]), hd]

/-- Settles O29: the shift cancels in the duration. -/
theorem edgeDependsOnlyOnTheDifference : Obligations.EdgeDependsOnlyOnTheDifference := by
  intro s t k u v hu hv
  rw [exec_edge] at hu hv
  cases hu
  cases hv
  simp [edgeEffect_shift]

/-! ### EDGEs with other commands between them -/

theorem exec_completes (i : Instr) (s : State) : ∃ t, exec i s = .next t := by
  cases i with
  | edge x => exact ⟨_, exec_edge x s⟩
  | rdAcquire => exact ⟨_, exec_rdAcquire s⟩
  | rdBit k j => exact ⟨_, exec_rdBit k j s⟩
  | rdWord k w => exact ⟨_, exec_rdWord k w s⟩
  | rdRelease k => exact ⟨_, exec_rdRelease k s⟩
  | txStart c r => exact ⟨_, exec_txStart c r s⟩
  | status => exact ⟨_, exec_status s⟩

theorem Instr.isEdge_eq_false_iff (i : Instr) : Instr.isEdge i = false ↔ ∀ x, i ≠ .edge x := by
  cases i <;> simp [Instr.isEdge]

/-- What the commands of the other agents can do to the receive side: release the head slot. -/
theorem exec_receiver_of_not_edge {i : Instr} {s t : State} (h : exec i s = .next t) (hi : Instr.isEdge i = false) :
    t.tm = s.tm ∧ t.dec = s.dec
    ∧ (t.ring = s.ring ∨ s.ring.rd ≠ s.ring.wr ∧ t.ring = s.ring.releaseHead s.ring.rd) := by
  have hne := (Instr.isEdge_eq_false_iff i).mp hi
  obtain ⟨htm, -⟩ := exec_frame h
  refine ⟨htm, exec_dec_of_not_edge h hne, ?_⟩
  rcases exec_ring_cases h with ⟨x, hx, -⟩ | ⟨-, hrd, hr⟩ | hr
  · exact absurd hx (hne x)
  · exact .inr ⟨hrd, hr⟩
  · exact .inl hr

theorem edgesFrom_cons (le d : U32) (ds : List U32) :
    edgesFrom le (d :: ds) = .edge (le + d) :: edgesFrom (le + d) ds := rfl

theorem edgesFrom_filter_isEdge (le : U32) (ds : List U32) :
    (edgesFrom le ds).filter Instr.isEdge = edgesFrom le ds := by
  rw [List.filter_eq_self, edgesFrom]
  intro i hi
  obtain ⟨x, -, rfl⟩ := List.mem_map.mp hi
  rfl

/-- No command of the other agents invalidates `P`. -/
def KeptByOthers (P : State → Prop) : Prop :=
  ∀ {i : Instr} {s t : State}, Instr.isEdge i = false → exec i s = .next t → P s → P t

/-- From a state with `P`, EDGEs of the durations `ds`, with any commands of the other agents around them, lead to a
state with `Q`. -/
def Receives (P : State → Prop) (ds : List U32) (Q : State → Prop) : Prop :=
  ∀ (s : State) (is : List Instr), P s → is.filter Instr.isEdge = edgesFrom s.dec.lastEdge ds →
    ∃ t, execAll is s = .next t ∧ Q t

theorem Receives.nil {P : State → Prop} (hP : KeptByOthers P) : Receives P [] P := by
  intro s is hs his
  induction is generalizing s with
  | nil => exact ⟨s, rfl, hs⟩
  | cons i is ih =>
    obtain ⟨u, hu⟩ := exec_completes i s
    obtain ⟨hi, hrest⟩ : Instr.isEdge i = false ∧ is.filter Instr.isEdge = [] := by
      simpa [edgesFrom, timesOf] using his
    rw [execAll_cons i is s u hu]
    exact ih u (hP hi hu hs) hrest

theorem Receives.cons {P Q R : State → Prop} {d : U32} {ds : List U32} (hP : KeptByOthers P)
    (hedge : ∀ {s t : State}, exec (.edge (s.dec.lastEdge + d)) s = .next t → P s → Q t) (hrest : Receives Q ds R) :
    Receives P (d :: ds) R := by
  intro s is hs his
  induction is generalizing s with
  | nil => cases his
  | cons i is ih =>
    obtain ⟨u, hu⟩ := exec_completes i s
    rw [execAll_cons i is s u hu]
    cases hi : Instr.isEdge i with
    | false =>
      obtain ⟨-, hdec, -⟩ := exec_receiver_of_not_edge hu hi
      rw [List.filter_cons_of_neg (by simp [hi]), ← hdec] at his
      exact ih u (hP hi hu hs) his
    | true =>
      rw [List.filter_cons_of_pos hi, edgesFrom_cons, List.cons_eq_cons] at his
      obtain ⟨rfl, htail⟩ := his
      refine hrest u is (hedge hu hs) ?_
      rw [exec_edge] at hu
      cases hu
      simpa using htail

/-! ### The decoder in a burst -/

theorem Ring.releaseHead_write_frame {r : Ring} (hne : r.rd ≠ r.wr) :
    (r.releaseHead r.rd).slots.frame r.wr = r.slots.frame r.wr := by
  rw [Ring.releaseHead, Memory.frame_clear, if_neg hne.symm]

theorem Ring.releaseHead_not_full {r : Ring} (hne : r.rd ≠ r.wr) : (r.releaseHead r.rd).full = false := by
  rw [Ring.full_eq_false_iff]
  exact fun h => hne (add_right_cancel h)

theorem Ring.burstSlot_releaseHead {r : Ring} (hne : r.rd ≠ r.wr) : (r.releaseHead r.rd).burstSlot = r.burstSlot := by
  rw [Ring.burstSlot, Ring.releaseHead_wr, Ring.releaseHead_write_frame hne, Ring.burstSlot]

/-- A release makes more room. -/
theorem Ring.roomForBurst_releaseHead {r : Ring} (hne : r.rd ≠ r.wr) (h : r.roomForBurst) :
    (r.releaseHead r.rd).roomForBurst := by
  have hb : (r.releaseHead r.rd).buffered + 1 = r.buffered := slot_buffered_release _ _ hne
  left
  rcases h with h | ⟨h, -⟩ <;> omega

theorem Ring.commitWriteSlot_wr (r : Ring) : (r.commitWriteSlot r.wr).wr = r.burstSlot := by
  rw [r.commitWriteSlot_eq]
  rfl

theorem Ring.commitWriteSlot_not_full {r : Ring} (h : r.roomForBurst) : (r.commitWriteSlot r.wr).full = false := by
  rw [Ring.full_eq_false_iff, Ring.commitWriteSlot_wr, Ring.commitWriteSlot_rd]
  exact Ring.not_full_at_burstSlot h

/-- The ring has room for a burst, which will go to the slot `k` (R151). -/
structure AwaitsBurst (k : SlotIdx) (s : State) : Prop where
  tm : s.tm = Config.defaultTM
  ring : s.ring.Inv
  room : s.ring.roomForBurst
  slot : s.ring.burstSlot = k

/-- A burst is being received: its bits so far are `bs`, they are in the write slot `k`, and the decoder is in `st`. -/
structure InBurst (k : SlotIdx) (st : DecState) (bs : List Bool) (s : State) : Prop where
  tm : s.tm = Config.defaultTM
  ring : s.ring.Inv
  notFull : s.ring.full = false
  slot : s.ring.wr = k
  state : s.dec.state = st
  bits : s.ring.inProgress = bs

theorem AwaitsBurst.keptByOthers (k : SlotIdx) : KeptByOthers (AwaitsBurst k) := by
  rintro i s t hi hx ⟨htm, hring, hroom, hslot⟩
  obtain ⟨htm', -, hr | ⟨hne, hr⟩⟩ := exec_receiver_of_not_edge hx hi
  · exact ⟨htm'.trans htm, hr ▸ hring, hr ▸ hroom, hr ▸ hslot⟩
  · refine ⟨htm'.trans htm, ?_, ?_, ?_⟩ <;> rw [hr]
    · exact hring.releaseHead hne
    · exact Ring.roomForBurst_releaseHead hne hroom
    · rw [Ring.burstSlot_releaseHead hne, hslot]

section burst

variable {k : SlotIdx} {st st' : DecState} {bs : List Bool}

theorem InBurst.keptByOthers : KeptByOthers (InBurst k st bs) := by
  rintro i s t hi hx ⟨htm, hring, hnf, hslot, hstate, hbits⟩
  obtain ⟨htm', hdec, hr | ⟨hne, hr⟩⟩ := exec_receiver_of_not_edge hx hi
  · exact ⟨htm'.trans htm, hr ▸ hring, hr ▸ hnf, hr ▸ hslot, hdec ▸ hstate, hr ▸ hbits⟩
  · refine ⟨htm'.trans htm, ?_, ?_, ?_, hdec ▸ hstate, ?_⟩ <;> rw [hr]
    · exact hring.releaseHead hne
    · exact Ring.releaseHead_not_full hne
    · exact hslot
    · rw [Ring.releaseHead_inProgress hne, hbits]

/-- The sync-high that opens a burst closes the frame in progress. -/
theorem AwaitsBurst.edge_syncHigh {d : U32} (hd : inWin d Config.defaultTM.sync.high = true) {s t : State}
    (hx : exec (.edge (s.dec.lastEdge + d)) s = .next t) (hs : AwaitsBurst k s) :
    InBurst k .waitingForLowSync [] t := by
  obtain ⟨htm, hring, hroom, hslot⟩ := hs
  have hnf := Ring.not_full_of_room hroom
  have hw : inWin (s.dec.lastEdge + d - s.dec.lastEdge) s.tm.sync.high = true := by rwa [add_sub_cancel_left, htm]
  rw [exec_edge, edgeEffect_of_syncHigh hnf hw] at hx
  cases hx
  exact ⟨htm, hring.commitWriteSlot hnf, Ring.commitWriteSlot_not_full hroom,
    (Ring.commitWriteSlot_wr _).trans hslot, rfl, hring.inProgress_commitWriteSlot hnf⟩

/-- An edge within a burst, by the table of R142. -/
theorem InBurst.edge {d : U32} {b : Option Bool} (hd : inWin d Config.defaultTM.sync.high = false)
    (hc : classify Config.defaultTM st d = (st', b)) {s t : State} (hx : exec (.edge (s.dec.lastEdge + d)) s = .next t)
    (hs : InBurst k st bs s) : InBurst k st' ((bs ++ b.toList).take 128) t := by
  obtain ⟨htm, hring, hnf, hslot, rfl, rfl⟩ := hs
  have hw : inWin (s.dec.lastEdge + d - s.dec.lastEdge) s.tm.sync.high = false := by rwa [add_sub_cancel_left, htm]
  have hrow : classify s.tm s.dec.state (s.dec.lastEdge + d - s.dec.lastEdge) = (st', b) := by
    rwa [add_sub_cancel_left, htm]
  rw [exec_edge_of_classify hnf hw hrow] at hx
  cases hx
  refine ⟨htm, hring.append hnf b, ?_, ?_, rfl, hring.inProgress_appendOption b⟩
  · rwa [State.respond_ring, State.withRing_ring, Ring.full, Ring.appendOption_rd, Ring.appendOption_wr]
  · exact (Ring.appendOption_wr ..).trans hslot

/-- An edge that appends nothing. -/
theorem InBurst.edge_none {d : U32} (hbs : bs.length ≤ 128) (hd : inWin d Config.defaultTM.sync.high = false)
    (hc : classify Config.defaultTM st d = (st', none)) {s t : State}
    (hx : exec (.edge (s.dec.lastEdge + d)) s = .next t) (hs : InBurst k st bs s) : InBurst k st' bs t := by
  simpa [List.take_of_length_le hbs] using hs.edge hd hc hx

/-- An edge that appends a bit. -/
theorem InBurst.edge_some {d : U32} {b : Bool} (hbs : bs.length < 128) (hd : inWin d Config.defaultTM.sync.high = false)
    (hc : classify Config.defaultTM st d = (st', some b)) {s t : State}
    (hx : exec (.edge (s.dec.lastEdge + d)) s = .next t) (hs : InBurst k st bs s) : InBurst k st' (bs ++ [b]) t := by
  have hlen : (bs ++ [b]).length ≤ 128 := by simpa using hbs
  simpa [List.take_of_length_le hlen] using hs.edge hd hc hx

/-- At the defaults the two phases of the sync symbol do not overlap (R134). -/
theorem not_syncHigh_of_syncLow {e : U32} (he : inWin e Config.defaultTM.sync.low = true) :
    inWin e Config.defaultTM.sync.high = false := by
  obtain ⟨-, hwindows⟩ := defaultWindows
  obtain ⟨hhigh, hlow, -⟩ := hwindows e
  have := hlow.mp he
  rw [← Bool.not_eq_true, hhigh]
  omega

/-- The sync symbol leaves an empty write slot and the decoder waiting for the first bit. -/
theorem Receives.sync {d e : U32} (hd : inWin d Config.defaultTM.sync.high = true)
    (he : inWin e Config.defaultTM.sync.low = true) {ds : List U32} {Q : State → Prop}
    (h : Receives (InBurst k .waitingForHigh []) ds Q) : Receives (AwaitsBurst k) (d :: e :: ds) Q := by
  have hrow : classify Config.defaultTM .waitingForLowSync e = (.waitingForHigh, none) := if_pos he
  exact .cons (AwaitsBurst.keptByOthers k) (AwaitsBurst.edge_syncHigh hd)
    (.cons InBurst.keptByOthers (InBurst.edge_none (Nat.zero_le _) (not_syncHigh_of_syncLow he) hrow) h)

/-- The two durations of a bit append it. -/
theorem Receives.bit {b : Bool} (hbs : bs.length < 128) {ds : List U32} {Q : State → Prop}
    (h : Receives (InBurst k .waitingForHigh (bs ++ [b])) ds Q) :
    Receives (InBurst k .waitingForHigh bs) (bitDurations Config.defaultTM b ++ ds) Q := by
  cases b with
  | false =>
    exact .cons InBurst.keptByOthers (InBurst.edge_none (st' := .waitingForLowZero) hbs.le (by decide) (by decide))
      (.cons InBurst.keptByOthers (InBurst.edge_some hbs (by decide) (by decide)) h)
  | true =>
    exact .cons InBurst.keptByOthers (InBurst.edge_none (st' := .waitingForLowOne) hbs.le (by decide) (by decide))
      (.cons InBurst.keptByOthers (InBurst.edge_some hbs (by decide) (by decide)) h)

/-- The durations of any bits append them, up to 128. -/
theorem Receives.bits (cs : List Bool) (hlen : bs.length + cs.length ≤ 128) :
    Receives (InBurst k .waitingForHigh bs) (cs.flatMap (bitDurations Config.defaultTM))
      (InBurst k .waitingForHigh (bs ++ cs)) := by
  induction cs generalizing bs with
  | nil => simpa using Receives.nil InBurst.keptByOthers
  | cons c cs ih =>
    rw [List.length_cons] at hlen
    rw [List.flatMap_cons, List.append_cons]
    exact .bit (by omega) (ih (by simp; omega))

end burst

/-- `CODE64 c` from any decoder state: the bits of `c`, and no others, in the write slot. -/
theorem Receives.code64 (k : SlotIdx) (c : U64) : Receives (AwaitsBurst k) (code64Durations Config.defaultTM c)
    (InBurst k .waitingForHigh (codeBits c)) := by
  have hbits : code64Durations Config.defaultTM c =
      5200 :: 600 :: (codeBits c).flatMap (bitDurations Config.defaultTM) := by
    rw [codeBits, List.flatMap_map]
    rfl
  rw [hbits]
  exact .sync (by decide) (by decide) (.bits (codeBits c) (by simp [codeBits]))

/-- Settles O30: a sync symbol alone. -/
theorem syncSymbolRelocksTheDecoder : Obligations.SyncSymbolRelocksTheDecoder := by
  intro s d e hs htm hroom hd he
  rw [htm] at hd he
  obtain ⟨u, hu, hburst⟩ := Receives.sync hd he (.nil InBurst.keptByOthers) s _ ⟨htm, hs.ring, hroom, rfl⟩
    (edgesFrom_filter_isEdge _ _)
  exact ⟨u, hu, hburst.state, hburst.slot, u.ring.inProgress_eq_nil.mp hburst.bits⟩

/-! ### The frame of a burst -/

section codeFrame

variable {f : Frame} {c : U64} (h : f.content = codeBits c)
include h

theorem Frame.size_of_codeBits : f.size = 64#8 := by
  apply BitVec.eq_of_toNat_eq
  rw [← f.content_length, h, codeBits, List.length_map, List.length_range]
  rfl

theorem Frame.read_of_codeBits {j : Nat} (hj : j < 64) : f.read j = c.getLsbD j := by
  have hread := f.content_getElem? j
  rw [h, Frame.size_of_codeBits h, if_pos (show j < (64#8).toNat from hj)] at hread
  simpa [codeBits, hj] using hread.symm

/-- A frame that holds the bits of a code is valid, and its value is the code (R53). -/
theorem Frame.valid_of_codeBits : f.isValid = true ∧ f.value = c := by
  refine ⟨by rw [Frame.isValid, Frame.size_of_codeBits h, beq_self_eq_true], BitVec.eq_of_getLsbD_eq fun j hj => ?_⟩
  rw [f.value_getLsbD j hj, Frame.read_of_codeBits h hj]

end codeFrame

/-- A sync-high commits a write slot that holds bits. -/
theorem exec_edge_commits {s : State} {d : U32} (hf : s.ring.full = false)
    (hd : inWin d s.tm.sync.high = true) (hne : (s.ring.slots.frame s.ring.wr).size ≠ 0) :
    ∃ u, exec (.edge (s.dec.lastEdge + d)) s = .next u ∧ u.ring = { s.ring with wr := nextSlot s.ring.wr } := by
  have hw : inWin (s.dec.lastEdge + d - s.dec.lastEdge) s.tm.sync.high = true := by rwa [add_sub_cancel_left]
  rw [exec_edge, edgeEffect_of_syncHigh hf hw, Ring.commitWriteSlot_of_nonempty _ _ hne]
  exact ⟨_, rfl, rfl⟩

theorem Ring.committed_after_advance {r : Ring} (hf : r.full = false) :
    ({ r with wr := nextSlot r.wr } : Ring).committed r.wr = true := by
  rw [Ring.committed_iff]
  exact (slot_committed_advance _ _ _ (r.full_eq_false_iff.mp hf)).mpr (.inr rfl)

/-- Settles O56: the burst's bits are those of the code, and the next sync-high commits them. -/
theorem cleanBurstDecodesItsCode : Obligations.CleanBurstDecodesItsCode := by
  intro s c is hs htm hroom his
  obtain ⟨t, ht, htm', -, hnf, hslot, hstate, hbits⟩ :=
    Receives.code64 s.ring.burstSlot c s is ⟨htm, hs.ring, hroom, rfl⟩ his
  have hsize := Frame.size_of_codeBits hbits
  refine ⟨t, ht, hslot, t.ring.wr_not_committed, hsize, fun j hj => Frame.read_of_codeBits hbits hj, hstate,
    fun d hd => ?_⟩
  obtain ⟨u, hu, hring⟩ := exec_edge_commits hnf (by rwa [htm']) (by rw [hsize]; decide)
  refine ⟨u, hu, ?_⟩
  rw [hring]
  exact ⟨rfl, Ring.committed_after_advance hnf, Frame.valid_of_codeBits hbits⟩

end Sys2Proof.Machine

namespace Sys2Proof.Machine

/-! PROOFS of the statements on the PulseEncoder (spec 44_pulse_encoder.md): TX_START, the segment step, the pin, the
segments of a whole call, the round trip on their durations, and loopback at the pin. -/

/-! ### TX_START -/

section txStart

variable {s : State} {code : U64} {rep : U8}

theorem exec_txStart_of_busy (hb : s.enc.busy = true) :
    exec (.txStart code rep) s = .next (s.raiseFault .txBusy (.txStart code rep)) := by
  rw [exec_txStart, if_pos hb]

theorem exec_txStart_of_zero (hb : s.enc.busy = false) (hr : rep = 0) :
    exec (.txStart code rep) s = .next (s.respond 0) := by
  rw [exec_txStart, hb, if_neg Bool.false_ne_true, if_pos hr]

theorem exec_txStart_of_idle (hb : s.enc.busy = false) (hr : rep ≠ 0) :
    exec (.txStart code rep) s = .next ((s.withEnc (s.enc.start code rep)).respond 0) := by
  rw [exec_txStart, hb, if_neg Bool.false_ne_true, if_neg hr]

end txStart

/-- Settles O48: the three answers of TX_START. -/
theorem txStartOutcomes : Obligations.TxStartOutcomes :=
  fun _ _ _ => ⟨exec_txStart_of_idle, exec_txStart_of_zero, fun hb => ⟨0, exec_txStart_of_busy hb⟩⟩

/-! ### One segment step -/

theorem Encoder.segment_of_high {e : Encoder} (h : e.phase = .high) (tm : TimingModel) :
    e.segment tm = ⟨true, (e.symbol tm).high.nom⟩ := by
  simp [Encoder.segment, h]

theorem Encoder.segment_of_low {e : Encoder} (h : e.phase = .low) (tm : TimingModel) :
    e.segment tm = ⟨false, (e.symbol tm).low.nom⟩ := by
  simp [Encoder.segment, h]

/-- At the end of a repeat `tx_busy` stays exactly when a repeat is left (R172). -/
theorem Encoder.advance_of_repeat_end (e : Encoder) (h : e.phase = .low) (hp : 64 ≤ e.pos.toNat) (hb : e.busy = true) :
    e.advance = { e with
      pin := false, phase := .high, pos := 0, repLeft := e.repLeft - 1, busy := decide (e.repLeft - 1 ≠ 0) } := by
  by_cases hr : e.repLeft = 1
  · rw [e.advance_of_last h hp hr, hr]
    rfl
  · have hleft : e.repLeft - 1 ≠ 0 := sub_ne_zero.mpr hr
    rw [e.advance_of_end h hp hr, decide_eq_true hleft, hb]

/-- The segment step of R172 written out: from `s`, with the events `left` still to come, to `o`. -/
def TakesSegment (s : State) (left : List Event) (o : Host.Outcome State Fault Refusal) : Prop :=
  (s.enc.phase = .high →
    o = .next { s with
      schedule := left, trace := s.trace ++ [⟨true, (s.enc.symbol s.tm).high.nom⟩]
      enc := { s.enc with pin := true, phase := .low } })
  ∧ (s.enc.phase = .low → s.enc.pos.toNat < 64 →
    o = .next { s with
      schedule := left, trace := s.trace ++ [⟨false, (s.enc.symbol s.tm).low.nom⟩]
      enc := { s.enc with pin := false, phase := .high, pos := s.enc.pos + 1 } })
  ∧ (s.enc.phase = .low → 64 ≤ s.enc.pos.toNat →
    o = .next { s with
      schedule := left, trace := s.trace ++ [⟨false, (s.enc.symbol s.tm).low.nom⟩]
      enc := { s.enc with
        pin := false, phase := .high, pos := 0, repLeft := s.enc.repLeft - 1
        busy := decide (s.enc.repLeft - 1 ≠ 0) } })

theorem takesSegment_of_step {s : State} {left : List Event} {o : Host.Outcome State Fault Refusal}
    (hb : s.enc.busy = true) (ho : o = .next (s.withSchedule left).txSegmentStep) : TakesSegment s left o := by
  have hstep : (s.withSchedule left).txSegmentStep = { s with
      schedule := left, trace := s.trace ++ [s.enc.segment s.tm], enc := s.enc.advance } := rfl
  subst ho
  rw [TakesSegment, hstep]
  refine ⟨fun h => ?_, fun h hp => ?_, fun h hp => ?_⟩
  · rw [Encoder.segment_of_high h, Encoder.advance_of_high _ h]
  · rw [Encoder.segment_of_low h, Encoder.advance_of_low _ h hp]
  · rw [Encoder.segment_of_low h, Encoder.advance_of_repeat_end _ h hp hb]

/-- Settles O49: under TXSTEP, TXRUN and no event the busy sequencer takes the same segment step, and only the events
still to come differ. -/
theorem txSegmentStep : Obligations.TxSegmentStep := by
  intro s
  refine ⟨fun rest hs => ⟨fun hb t => ?_, fun hb => takesSegment_of_step hb (step_of_txStep hs hb)⟩,
    fun rest hs => ⟨step_of_txRun_idle hs, fun hb => takesSegment_of_step hb ?_⟩,
    fun hs hb => takesSegment_of_step hb ?_⟩
  · rw [step_of_txStep_idle hs hb]
    exact fun h => by cases h
  · rw [step_of_txRun hs hb, ← hs]
    rfl
  · rw [step_of_busy hs hb, ← hs]
    rfl

/-! ### The pin -/

/-- What a step that is not the reset input does to the trace and the pin: a segment step, or nothing. -/
theorem step_trace_cases {s t : State} (h : step s = .next t) (hnr : s.resetPending = false) :
    (s.enc.busy = true ∧ t.trace = s.trace ++ [s.enc.segment s.tm] ∧ t.enc = s.enc.advance)
    ∨ (t.trace = s.trace ∧ t.enc.pin = s.enc.pin) := by
  rcases step_cases h with ⟨-, rfl⟩ | ⟨p, w, rest, e, -, -, rfl⟩ | ⟨p, w, rest, i, -, -, -, hx⟩ | ⟨rest, -, hb, rfl⟩
    | ⟨rest, -, rfl⟩ | ⟨le, bits, rest, hs, -⟩
  · split
    next hb => exact .inl ⟨hb, rfl, rfl⟩
    next => exact .inr ⟨rfl, rfl⟩
  · exact .inr ⟨rfl, rfl⟩
  · obtain ⟨-, -, htrace, -, -, hpin, -⟩ := exec_frame hx
    exact .inr ⟨htrace, hpin⟩
  · exact .inl ⟨hb, rfl, rfl⟩
  · split
    next hb => exact .inl ⟨hb, rfl, rfl⟩
    next => exact .inr ⟨rfl, rfl⟩
  · simp [State.resetPending, hs] at hnr

theorem Encoder.finishSymbol_pin (e : Encoder) : e.finishSymbol.pin = false := by
  unfold Encoder.finishSymbol
  split <;> rfl

/-- A segment is at the level to which its step sets the pin. -/
theorem Encoder.segment_level (e : Encoder) (tm : TimingModel) : (e.segment tm).level = e.advance.pin := by
  cases h : e.phase with
  | high => rw [Encoder.segment_of_high h, e.advance_of_high h]
  | low => simp [Encoder.segment_of_low h, Encoder.advance, h, Encoder.finishSymbol_pin]

/-- The pin is high exactly in the LOW phase (R176), whose step clears it; the HIGH phase's step sets it. -/
theorem Encoder.Inv.advance_pin {e : Encoder} (h : e.Inv) : e.advance.pin = !e.pin := by
  cases hphase : e.phase with
  | high =>
    have hpin : e.pin = false := by simpa [hphase] using h.pin
    rw [e.advance_of_high hphase, hpin]
    rfl
  | low =>
    have hpin : e.pin = true := h.pin.mpr hphase
    simp [Encoder.advance, hphase, Encoder.finishSymbol_pin, hpin]

theorem Encoder.Inv.pin_of_idle {e : Encoder} (h : e.Inv) (hb : e.busy = false) : e.pin = false := by
  obtain ⟨-, -, hphase⟩ := h.idle hb
  simpa [hphase] using h.pin

/-- Settles O50: a segment step inverts the pin, and no other step touches it. -/
theorem everySegmentIsAPinTransition : Obligations.EverySegmentIsAPinTransition := by
  intro s t hs hnr h
  have hinv := hs.enc.after_step h
  rcases step_trace_cases h hnr with ⟨hb, htrace, henc⟩ | ⟨htrace, hpin⟩
  · refine ⟨fun _ => ⟨?_, ⟨(s.enc.segment s.tm).dur, ?_⟩, hinv.pin_of_idle⟩, fun hsame => ?_⟩
    · rw [henc, hs.enc.advance_pin]
    · rw [htrace, henc, ← Encoder.segment_level _ s.tm]
    · rw [htrace] at hsame
      simp at hsame
  · exact ⟨fun hne => absurd htrace hne, fun _ => hpin⟩

/-! ### The durations of a repeat -/

theorem map_dur_flatMap_symbolSegments (xs : List SymbolTiming) :
    (xs.flatMap symbolSegments).map Segment.dur = xs.flatMap symbolDurations := by
  rw [List.map_flatMap]
  rfl

theorem symbolDurations_dataSymbol (tm : TimingModel) (b : Bool) :
    symbolDurations (dataSymbol tm b) = bitDurations tm b := by
  cases b <;> rfl

theorem map_dur_repeatSegments (tm : TimingModel) (code : U64) :
    (repeatSegments tm code).map Segment.dur = code64Durations tm code := by
  rw [repeatSegments, map_dur_flatMap_symbolSegments, repeatSymbols, List.flatMap_cons, List.flatMap_map]
  simp only [symbolDurations_dataSymbol, code64Durations]

/-- Settles O53: the sync symbol and the 64 data symbols are those of CODE64. -/
theorem repeatDurationsAreCode64 : Obligations.RepeatDurationsAreCode64 := by
  intro tm code
  rw [txSegments_one, map_dur_repeatSegments]

/-! ### The segments of a whole call -/

/-- A transmission of `code` is about to send the symbol `m` of a repeat, with `left` repeats to go, this one included. -/
structure AtSymbol (code : U64) (left m : Nat) (e : Encoder) : Prop where
  busy : e.busy = true
  code : e.code = code
  repLeft : e.repLeft.toNat = left
  pos : e.pos.toNat = m
  phase : e.phase = .high

theorem AtSymbol.start (e : Encoder) (code : U64) (rep : U8) : AtSymbol code rep.toNat 0 (e.start code rep) :=
  ⟨rfl, rfl, rfl, rfl, rfl⟩

theorem repeatSymbols_length (tm : TimingModel) (code : U64) : (repeatSymbols tm code).length = 65 := by
  simp [repeatSymbols]

section symbols

variable {code : U64} {left m : Nat}

/-- The symbol at `tx_pos` is that of the call (R54, R173). -/
theorem AtSymbol.repeatSymbols_getElem? {e : Encoder} (h : AtSymbol code left m e) (hm : m ≤ 64) (tm : TimingModel) :
    (repeatSymbols tm code)[m]? = some (e.symbol tm) := by
  obtain ⟨-, rfl, -, hpos, -⟩ := h
  cases m with
  | zero =>
    have hzero : e.pos = 0 := BitVec.eq_of_toNat_eq hpos
    rw [Encoder.symbol, if_pos hzero]
    rfl
  | succ j =>
    have hne : e.pos ≠ 0 := fun h0 => by simp [h0] at hpos
    rw [Encoder.symbol, if_neg hne, hpos, repeatSymbols_succ tm e.code (by omega)]
    rfl

variable {s : State} (h : AtSymbol code left m s.enc)
include h

theorem AtSymbol.txSteps_two_trace (hm : m ≤ 64) :
    (txSteps 2 s).trace = s.trace ++ ((repeatSymbols s.tm code)[m]?.toList).flatMap symbolSegments := by
  obtain ⟨htrace, -, -⟩ := txSteps_symbol s h.phase
  rw [htrace, h.repeatSymbols_getElem? hm]
  simp

/-- The next symbol of the same repeat. -/
theorem AtSymbol.txSteps_two (hm : m < 64) : AtSymbol code left (m + 1) (txSteps 2 s).enc := by
  obtain ⟨-, -, henc⟩ := txSteps_symbol s h.phase
  obtain ⟨hbusy, hcode, hrep, hpos, -⟩ := h
  have hlt : s.enc.pos.toNat < 64 := hpos ▸ hm
  rw [henc, Encoder.finishSymbol, if_pos hlt]
  exact ⟨hbusy, hcode, hrep, by simp only; bv_omega, rfl⟩

end symbols

section ends

variable {code : U64} {left : Nat} {s : State}

/-- The last symbol of a repeat that is not the last one. -/
theorem AtSymbol.txSteps_two_of_end (h : AtSymbol code (left + 1) 64 s.enc) (hleft : left ≠ 0) :
    AtSymbol code left 0 (txSteps 2 s).enc := by
  obtain ⟨-, -, henc⟩ := txSteps_symbol s h.phase
  obtain ⟨hbusy, hcode, hrep, hpos, -⟩ := h
  have hge : ¬ s.enc.pos.toNat < 64 := by omega
  have hne : s.enc.repLeft - 1 ≠ 0 := by bv_omega
  rw [henc, Encoder.finishSymbol, if_neg hge]
  exact ⟨by simp only [if_neg hne, hbusy], hcode, by simp only; bv_omega, rfl, rfl⟩

/-- The last symbol of the last repeat. -/
theorem AtSymbol.txSteps_two_of_last (h : AtSymbol code 1 64 s.enc) :
    (txSteps 2 s).enc = ⟨false, false, code, 0#8, 0#7, .high⟩ := by
  obtain ⟨-, -, henc⟩ := txSteps_symbol s h.phase
  obtain ⟨-, hcode, hrep, hpos, -⟩ := h
  have hge : ¬ s.enc.pos.toNat < 64 := by omega
  have hone : s.enc.repLeft = 1 := BitVec.eq_of_toNat_eq hrep
  rw [henc, Encoder.finishSymbol, if_neg hge]
  simp [hone, hcode]

/-- The first `m` symbols of a repeat. -/
theorem AtSymbol.txSteps_symbols (h : AtSymbol code left 0 s.enc) (m : Nat) (hm : m ≤ 64) :
    AtSymbol code left m (txSteps (2 * m) s).enc
    ∧ (txSteps (2 * m) s).trace = s.trace ++ ((repeatSymbols s.tm code).take m).flatMap symbolSegments := by
  induction m with
  | zero => exact ⟨h, by simp [txSteps]⟩
  | succ m ih =>
    obtain ⟨hat, htrace⟩ := ih (by omega)
    obtain ⟨htm, -⟩ := txSteps_frame (2 * m) s
    rw [Nat.mul_succ, txSteps_add]
    refine ⟨hat.txSteps_two hm, ?_⟩
    rw [hat.txSteps_two_trace (by omega), htrace, htm, List.append_assoc, ← List.flatMap_append, List.take_add_one]

/-- A whole repeat, 65 symbols of two segments each. -/
theorem AtSymbol.txSteps_repeat_trace (h : AtSymbol code left 0 s.enc) :
    (txSteps 130 s).trace = s.trace ++ repeatSegments s.tm code := by
  obtain ⟨hat, htrace⟩ := h.txSteps_symbols 64 le_rfl
  obtain ⟨htm, -⟩ := txSteps_frame (2 * 64) s
  have hlast := List.take_add_one (l := repeatSymbols s.tm code) (i := 64)
  rw [List.take_of_length_le (repeatSymbols_length s.tm code).le] at hlast
  rw [show 130 = 2 * 64 + 2 from rfl, txSteps_add, hat.txSteps_two_trace le_rfl, htrace, htm, List.append_assoc,
    ← List.flatMap_append, ← hlast, repeatSegments]

theorem AtSymbol.txSteps_repeat (h : AtSymbol code (left + 1) 0 s.enc) (hleft : left ≠ 0) :
    AtSymbol code left 0 (txSteps 130 s).enc := by
  obtain ⟨hat, -⟩ := h.txSteps_symbols 64 le_rfl
  rw [show 130 = 2 * 64 + 2 from rfl, txSteps_add]
  exact hat.txSteps_two_of_end hleft

end ends

/-- No segment step starts a transmission. -/
theorem Encoder.advance_of_idle {e : Encoder} (h : e.busy = false) : e.advance.busy = false := by
  cases hphase : e.phase with
  | high => rw [e.advance_of_high hphase, h]
  | low =>
    by_cases hp : e.pos.toNat < 64
    · rw [e.advance_of_low hphase hp, h]
    · simp [Encoder.advance, hphase, Encoder.finishSymbol, hp, h]

theorem txSteps_busy_of_le {j k : Nat} (hjk : j ≤ k) {s : State} (h : (txSteps k s).enc.busy = true) :
    (txSteps j s).enc.busy = true := by
  induction k, hjk using Nat.le_induction with
  | base => exact h
  | succ k _ ih =>
    rw [txSteps_add k 1] at h
    refine ih (Bool.eq_true_of_not_eq_false fun hidle => ?_)
    exact Bool.false_ne_true ((Encoder.advance_of_idle hidle).symm.trans h)

/-- The last repeat: busy until its last segment. -/
theorem AtSymbol.txSteps_last_repeat {code : U64} {s : State} (h : AtSymbol code 1 0 s.enc) :
    (∀ j, j < 130 → (txSteps j s).enc.busy = true)
    ∧ (txSteps 130 s).enc = ⟨false, false, code, 0#8, 0#7, .high⟩ := by
  obtain ⟨hat, -⟩ := h.txSteps_symbols 64 le_rfl
  obtain ⟨-, hbusy, -⟩ := txSteps_symbol _ hat.phase
  rw [← txSteps_add, hat.busy] at hbusy
  refine ⟨fun j hj => txSteps_busy_of_le (Nat.le_of_lt_succ hj) hbusy, ?_⟩
  rw [show 130 = 2 * 64 + 2 from rfl, txSteps_add, hat.txSteps_two_of_last]

theorem txSegments_succ (tm : TimingModel) (code : U64) (n : Nat) :
    txSegments tm code (n + 1) = repeatSegments tm code ++ txSegments tm code n := by
  simp [txSegments, List.replicate_succ]

/-- A whole call, by induction on the repeats after the first: it is busy until its last segment. -/
theorem AtSymbol.txSteps_call {code : U64} {n : Nat} {s : State} (h : AtSymbol code (n + 1) 0 s.enc) :
    (∀ j, j < 130 * (n + 1) → (txSteps j s).enc.busy = true)
    ∧ (txSteps (130 * (n + 1)) s).enc = ⟨false, false, code, 0#8, 0#7, .high⟩
    ∧ (txSteps (130 * (n + 1)) s).trace = s.trace ++ txSegments s.tm code (n + 1) := by
  induction n generalizing s with
  | zero =>
    obtain ⟨hbusy, henc⟩ := h.txSteps_last_repeat
    refine ⟨hbusy, henc, ?_⟩
    rw [zero_add, mul_one, txSegments_one, h.txSteps_repeat_trace]
  | succ n ih =>
    have hnext := h.txSteps_repeat n.succ_ne_zero
    obtain ⟨hbusy, henc, htrace⟩ := ih hnext
    obtain ⟨htm, -⟩ := txSteps_frame 130 s
    rw [Nat.mul_succ 130 (n + 1), Nat.add_comm _ 130, txSteps_add]
    refine ⟨fun j hj => ?_, henc, ?_⟩
    · by_cases hj130 : j ≤ 130
      · exact txSteps_busy_of_le hj130 hnext.busy
      · have hlater := hbusy (j - 130) (by omega)
        rwa [← txSteps_add, Nat.add_sub_of_le (by omega)] at hlater
    · rw [htrace, htm, h.txSteps_repeat_trace, List.append_assoc, ← txSegments_succ]

/-- The step that takes TX_START from the schedule, from idle. -/
theorem step_of_txStart {s : State} {code : U64} {rep : U8} {rest : List Event} (hb : s.enc.busy = false) (hr : rep ≠ 0)
    (hs : s.schedule = .command .tx (encode (.txStart code rep)) :: rest) :
    step s = .next (((s.accept .tx rest).withEnc (s.enc.start code rep)).respond 0) := by
  rw [step_of_command hs (decodeOfEncodeIsTheCommand _ (Instr.wellFormed_all _))]
  exact exec_txStart_of_idle (s := s.accept .tx rest) hb hr

/-- From idle with only a TX_START scheduled: the command, then segment steps as long as the call lasts. -/
theorem run_of_txStart {s : State} {code : U64} {rep : U8} (hb : s.enc.busy = false) (hr : rep ≠ 0)
    (hs : s.schedule = [.command .tx (encode (.txStart code rep))]) :
    (∀ k, k < 130 * rep.toNat → ∃ u, Host.Core.run Sys2Proof.core (k + 1) s = .next u ∧ u.enc.busy = true)
    ∧ ∃ t, Host.Core.run Sys2Proof.core (130 * rep.toNat + 1) s = .next t
      ∧ t.trace = s.trace ++ txSegments s.tm code rep.toNat ∧ t.enc = ⟨false, false, code, 0#8, 0#7, .high⟩
      ∧ t.tm = s.tm ∧ t.dec = s.dec ∧ t.ring = s.ring ∧ t.fault = s.fault := by
  have hstart := step_of_txStart hb hr hs
  have hat := AtSymbol.start s.enc code rep
  have hpos : rep.toNat ≠ 0 := fun h0 => hr (BitVec.eq_of_toNat_eq h0)
  obtain ⟨n, hn⟩ := Nat.exists_eq_add_one_of_ne_zero hpos
  rw [hn] at hat ⊢
  generalize hu : ((s.accept .tx []).withEnc (s.enc.start code rep)).respond 0 = u at hstart
  obtain ⟨hbusy, henc, htrace⟩ := AtSymbol.txSteps_call (s := u) (by rwa [← hu])
  have hrun (k : Nat) (hk : k ≤ 130 * (n + 1)) : Host.Core.run Sys2Proof.core (k + 1) s = .next (txSteps k u) := by
    rw [run_succ k hstart]
    exact run_txSteps k u (by rw [← hu]; rfl) fun j hj => hbusy j (hj.trans_le hk)
  obtain ⟨htm, hdec, hring, hfault, -⟩ := txSteps_frame (130 * (n + 1)) u
  refine ⟨fun k hk => ⟨_, hrun k hk.le, hbusy k hk⟩, _, hrun _ le_rfl, ?_⟩
  rw [htrace, htm, hdec, hring, hfault, ← hu]
  exact ⟨rfl, by rwa [← hu] at henc, rfl, rfl, rfl, rfl⟩

/-- Settles O51: TX_START leads to the first symbol, and the call's segment steps follow. -/
theorem transmissionEmitsExactlyItsSegments : Obligations.TransmissionEmitsExactlyItsSegments := by
  intro s code rep hb hr hs
  obtain ⟨hbusy, t, ht, htrace, henc, -, hrest⟩ := run_of_txStart hb hr hs
  exact ⟨hbusy, t, ht, htrace, henc, hrest⟩

/-! ### EDGEs one after the other -/

/-- What an EDGE does to what later ones read, and to the fault list. -/
theorem exec_edge_next {s t : State} {x : U32} (h : exec (.edge x) s = .next t) :
    t.tm = s.tm ∧ t.fault = s.fault ∧ t.dec.lastEdge = x ∧ t.ring = (edgeEffect s.tm s.dec s.ring x).2 := by
  rw [exec_edge] at h
  cases h
  exact ⟨rfl, rfl, edgeEffect_lastEdge .., rfl⟩

theorem execAll_edgesFrom_cons_iff {s t : State} {d : U32} {ds : List U32} :
    execAll (edgesFrom s.dec.lastEdge (d :: ds)) s = .next t ↔
      ∃ u, exec (.edge (s.dec.lastEdge + d)) s = .next u ∧ execAll (edgesFrom u.dec.lastEdge ds) u = .next t := by
  obtain ⟨u, hu⟩ := exec_completes (.edge (s.dec.lastEdge + d)) s
  obtain ⟨-, -, hlast, -⟩ := exec_edge_next hu
  rw [edgesFrom_cons, execAll_cons _ _ s u hu, ← hlast]
  refine ⟨fun h => ⟨u, hlast ▸ hu, h⟩, ?_⟩
  rintro ⟨v, hv, h⟩
  rw [hlast, hu] at hv
  cases hv
  exact h

/-- The durations of one list and then those of another, each measured from the last edge. -/
theorem execAll_edgesFrom_append_iff {s t : State} {a b : List U32} :
    execAll (edgesFrom s.dec.lastEdge (a ++ b)) s = .next t ↔
      ∃ u, execAll (edgesFrom s.dec.lastEdge a) s = .next u ∧ execAll (edgesFrom u.dec.lastEdge b) u = .next t := by
  induction a generalizing s with
  | nil =>
    refine ⟨fun h => ⟨s, rfl, h⟩, ?_⟩
    rintro ⟨u, hu, h⟩
    cases hu
    exact h
  | cons d a ih =>
    rw [List.cons_append, execAll_edgesFrom_cons_iff]
    constructor
    · rintro ⟨v, hv, h⟩
      obtain ⟨u, hu, h⟩ := ih.mp h
      exact ⟨u, execAll_edgesFrom_cons_iff.mpr ⟨v, hv, hu⟩, h⟩
    · rintro ⟨u, hu, h⟩
      obtain ⟨v, hv, hu⟩ := execAll_edgesFrom_cons_iff.mp hu
      exact ⟨v, hv, ih.mpr ⟨u, hu, h⟩⟩

theorem execAll_edgesFrom_fault {s t : State} {ds : List U32}
    (h : execAll (edgesFrom s.dec.lastEdge ds) s = .next t) : t.fault = s.fault := by
  induction ds generalizing s with
  | nil => cases h; rfl
  | cons d ds ih =>
    obtain ⟨u, hu, hrest⟩ := execAll_edgesFrom_cons_iff.mp h
    obtain ⟨-, hfault, -⟩ := exec_edge_next hu
    rw [ih hrest, hfault]

/-! ### Bursts on the queue -/

/-- The committed frames and the frame in progress, if it holds bits: the queue that the next sync-high leaves
(`edgeEffect_queue_of_syncHigh`). -/
def Ring.frames (r : Ring) : List (List Bool) :=
  if r.inProgress = [] then r.queue else r.queue ++ [r.inProgress]

theorem Ring.frames_of_empty {r : Ring} (h : r.inProgress = []) : r.frames = r.queue := if_pos h

theorem Ring.frames_of_nonempty {r : Ring} (h : r.inProgress ≠ []) : r.frames = r.queue ++ [r.inProgress] := if_neg h

theorem Ring.frames_eq_append (r : Ring) : ∃ leftover, leftover.length ≤ 1 ∧ r.frames = r.queue ++ leftover := by
  by_cases h : r.inProgress = []
  · exact ⟨[], Nat.zero_le 1, by rw [Ring.frames_of_empty h, List.append_nil]⟩
  · exact ⟨[r.inProgress], le_rfl, Ring.frames_of_nonempty h⟩

/-- There is room for a burst exactly when the frames from before it are at most 6 (R151). -/
theorem Ring.roomForBurst_iff (r : Ring) : r.roomForBurst ↔ r.frames.length ≤ 6 := by
  unfold Ring.roomForBurst
  rw [← Ring.inProgress_eq_nil]
  by_cases h : r.inProgress = []
  · rw [Ring.frames_of_empty h, r.queue_length]
    simp only [h, and_true]
    omega
  · rw [Ring.frames_of_nonempty h, List.length_append, r.queue_length, List.length_singleton]
    simp only [h, and_false, or_false]
    omega

section queue

variable {tm : TimingModel} {dec : Decoder} {r : Ring} {x : U32}

theorem edgeEffect_queue_of_syncHigh (hf : r.full = false) (hw : inWin (x - dec.lastEdge) tm.sync.high = true) :
    (edgeEffect tm dec r x).2.queue = r.frames := by
  rw [edgeEffect_of_syncHigh hf hw]
  exact Ring.queue_commitWriteSlot hf

theorem edgeEffect_queue_of_not_syncHigh (hw : inWin (x - dec.lastEdge) tm.sync.high = false) :
    (edgeEffect tm dec r x).2.queue = r.queue := by
  cases hf : r.full with
  | true => rw [edgeEffect_of_full hf]
  | false => rw [edgeEffect_of_not_syncHigh hf hw, Ring.queue_appendOption]

/-- An edge of any duration closes the frame in progress or goes on with it. -/
theorem Ring.Inv.frames_after_edge (h : r.Inv) (hf : r.full = false) :
    ∃ leftover, leftover.length ≤ 1 ∧ (edgeEffect tm dec r x).2.frames = r.queue ++ leftover := by
  cases hw : inWin (x - dec.lastEdge) tm.sync.high with
  | false =>
    rw [← edgeEffect_queue_of_not_syncHigh (r := r) hw]
    exact Ring.frames_eq_append _
  | true =>
    have hempty : (edgeEffect tm dec r x).2.inProgress = [] := by
      rw [edgeEffect_of_syncHigh hf hw]
      exact h.inProgress_commitWriteSlot hf
    rw [Ring.frames_of_empty hempty, edgeEffect_queue_of_syncHigh hf hw]
    exact Ring.frames_eq_append _

end queue

/-- An EDGE whose duration is a sync-high, on the queue. -/
theorem exec_edge_queue_of_syncHigh {s t : State} {d : U32} (hf : s.ring.full = false)
    (hd : inWin d s.tm.sync.high = true) (h : exec (.edge (s.dec.lastEdge + d)) s = .next t) :
    t.ring.queue = s.ring.frames := by
  obtain ⟨-, -, -, hring⟩ := exec_edge_next h
  rw [hring]
  exact edgeEffect_queue_of_syncHigh hf (by rwa [add_sub_cancel_left])

/-- EDGEs without a sync-high commit nothing. -/
theorem execAll_edgesFrom_queue {tm : TimingModel} {s t : State} {ds : List U32} (hs : s.tm = tm)
    (hds : ∀ d ∈ ds, inWin d tm.sync.high = false) (h : execAll (edgesFrom s.dec.lastEdge ds) s = .next t) :
    t.ring.queue = s.ring.queue := by
  induction ds generalizing s with
  | nil => cases h; rfl
  | cons d ds ih =>
    obtain ⟨hd, hrest⟩ := List.forall_mem_cons.mp hds
    obtain ⟨u, hu, hv⟩ := execAll_edgesFrom_cons_iff.mp h
    obtain ⟨htm, -, -, hring⟩ := exec_edge_next hu
    rw [ih (htm.trans hs) hrest hv, hring]
    exact edgeEffect_queue_of_not_syncHigh (by rwa [add_sub_cancel_left, hs])

/-- The durations of a burst that carries `bs`, at the defaults. -/
def burstDurations (bs : List Bool) : List U32 :=
  5200 :: 600 :: bs.flatMap (bitDurations Config.defaultTM)

theorem code64Durations_eq_burst (c : U64) : code64Durations Config.defaultTM c = burstDurations (codeBits c) := by
  rw [burstDurations, codeBits, List.flatMap_map]
  rfl

/-- Only the first duration of a burst is a sync-high (R134). -/
theorem burstDurations_no_syncHigh (bs : List Bool) :
    ∀ d ∈ 600 :: bs.flatMap (bitDurations Config.defaultTM), inWin d Config.defaultTM.sync.high = false := by
  refine List.forall_mem_cons.mpr ⟨by decide, fun d hd => ?_⟩
  obtain ⟨b, -, hb⟩ := List.mem_flatMap.mp hd
  have hnominal : d = 600 ∨ d = 200 := by
    cases b with
    | false => simpa [bitDurations, symbolDurations, Config.defaultTM] using hb
    | true => simpa [bitDurations, symbolDurations, Config.defaultTM, or_comm] using hb
  rcases hnominal with rfl | rfl <;> decide

/-- A burst closes the frame in progress and leaves its own bits in the write slot. -/
theorem AwaitsBurst.execAll_burst {k : SlotIdx} {s : State} (h : AwaitsBurst k s) {bs : List Bool}
    (hbs : bs.length ≤ 128) :
    ∃ t, execAll (edgesFrom s.dec.lastEdge (burstDurations bs)) s = .next t ∧ InBurst k .waitingForHigh bs t
      ∧ t.ring.queue = s.ring.frames := by
  have hbits : Receives (InBurst k .waitingForHigh []) (bs.flatMap (bitDurations Config.defaultTM))
      (InBurst k .waitingForHigh bs) := .bits bs (by simpa using hbs)
  obtain ⟨t, ht, hburst⟩ := Receives.sync (d := 5200) (e := 600) (by decide) (by decide) hbits s _ h
    (edgesFrom_filter_isEdge _ _)
  refine ⟨t, ht, hburst, ?_⟩
  obtain ⟨u, hu, hrest⟩ := execAll_edgesFrom_cons_iff.mp ht
  obtain ⟨htm, -⟩ := exec_edge_next hu
  rw [execAll_edgesFrom_queue (htm.trans h.tm) (burstDurations_no_syncHigh bs) hrest]
  exact exec_edge_queue_of_syncHigh (Ring.not_full_of_room h.room) (by rw [h.tm]; decide) hu

/-! ### The round trip on the durations -/

theorem codeBits_length (c : U64) : (codeBits c).length = 64 := by simp [codeBits]

theorem codeBits_ne_nil (c : U64) : codeBits c ≠ [] := List.ne_nil_of_length_pos (by simp [codeBits_length])

/-- A consumer whose queue starts with the bits of a code reads size 64 and the code (R102, R104). -/
theorem read_of_queue_codeBits {s : State} {c : U64} {fs : List (List Bool)} (h : s.ring.queue = codeBits c :: fs) :
    (∃ a, exec .rdAcquire s = .next a ∧ a.resp.getLsbD 0 = true ∧ a.resp.extractLsb' 4 8 = 64#8)
    ∧ ∃ v, exec (.rdWord s.ring.rd 0) s = .next v ∧ v.resp = c := by
  obtain ⟨hne, hhead, -⟩ := Ring.queue_eq_cons h
  obtain ⟨hvalid, hvalue⟩ := Frame.valid_of_codeBits hhead.symm
  refine ⟨⟨_, exec_rdAcquire_of_nonempty hne, acquireResponse_valid _ _, ?_⟩,
    ⟨_, exec_rdWord_of_head (Ring.isHead_rd hne) 0, ?_⟩⟩
  · rw [State.respond_resp, acquireResponse_size, Frame.size_of_codeBits hhead.symm]
  · rw [State.respond_resp, Frame.visibleWord_zero_of_valid hvalid, hvalue]

/-- CODE64 adds its code to the frames. -/
theorem AwaitsBurst.execAll_code64 {k : SlotIdx} {s : State} (h : AwaitsBurst k s) (c : U64) :
    ∃ t, execAll (edgesFrom s.dec.lastEdge (code64Durations Config.defaultTM c)) s = .next t
      ∧ InBurst k .waitingForHigh (codeBits c) t ∧ t.ring.frames = s.ring.frames ++ [codeBits c] := by
  rw [code64Durations_eq_burst]
  obtain ⟨t, ht, hburst, hqueue⟩ := h.execAll_burst (codeBits_length c ▸ (by decide : 64 ≤ 128))
  have hne : t.ring.inProgress ≠ [] := hburst.bits ▸ codeBits_ne_nil c
  exact ⟨t, ht, hburst, by rw [Ring.frames_of_nonempty hne, hqueue, hburst.bits]⟩

/-- CODE64 and one more sync-high put the code at the back of the queue. -/
theorem AwaitsBurst.execAll_code64_commit {k : SlotIdx} {s : State} (h : AwaitsBurst k s) (c : U64) :
    ∃ u, execAll (edgesFrom s.dec.lastEdge (code64Durations Config.defaultTM c ++ [5200])) s = .next u
      ∧ u.ring.queue = s.ring.frames ++ [codeBits c] := by
  obtain ⟨t, ht, hburst, hframes⟩ := h.execAll_code64 c
  obtain ⟨u, hu⟩ := exec_completes (.edge (t.dec.lastEdge + 5200)) t
  refine ⟨u, ?_, ?_⟩
  · rw [execAll_edgesFrom_append_iff]
    exact ⟨t, ht, execAll_edgesFrom_cons_iff.mpr ⟨u, hu, rfl⟩⟩
  · rw [exec_edge_queue_of_syncHigh hburst.notFull (by rw [hburst.tm]; decide) hu, hframes]

/-- Settles O57: the call emits the durations of CODE64, which the empty ring takes as its only frame. -/
theorem roundTripReturnsTheCode : Obligations.RoundTripReturnsTheCode := by
  intro s t c hs htm hb hempty hwrite hsched hrun
  obtain ⟨-, u, hu, htrace, -, htm', -, hring, hfault⟩ := run_of_txStart hb (by decide) hsched
  obtain rfl : u = t := Host.Outcome.next.inj (hu.symm.trans hrun)
  have hbuffered : u.ring.buffered = 0 := by rw [hring, Ring.buffered_eq_zero_iff, hempty]
  have hframes : u.ring.frames = [] := by
    rw [Ring.frames_of_empty (by rwa [hring, Ring.inProgress_eq_nil]), ← List.length_eq_zero_iff, Ring.queue_length,
      hbuffered]
  have hawaits : AwaitsBurst u.ring.burstSlot u :=
    ⟨htm'.trans htm, hring ▸ hs.ring, .inl (by omega), rfl⟩
  have hdurations : (u.trace.drop s.trace.length).map Segment.dur = code64Durations Config.defaultTM c := by
    rw [htrace, List.drop_left, htm]
    exact repeatDurationsAreCode64 _ c
  obtain ⟨v, hv, hqueue⟩ := hawaits.execAll_code64_commit c
  rw [hframes, List.nil_append] at hqueue
  obtain ⟨⟨a, ha, hvalid, hsize⟩, w, hw, hcode⟩ := read_of_queue_codeBits hqueue
  exact ⟨v, a, w, hdurations ▸ hv, ha, hvalid, hsize, hw, hcode, (execAll_edgesFrom_fault hv).trans hfault⟩

/-! ### Loopback at the pin -/

/-- After the first edge of a trace, each edge comes the duration of a segment after the edge before it (R177). -/
theorem pinEdges_eq (t : U32) {gs : List Segment} (h : gs ≠ []) :
    pinEdges t gs = t :: timesOf t (gs.map Segment.dur).dropLast := by
  obtain ⟨g, gs, rfl⟩ := List.exists_cons_of_ne_nil h
  clear h
  induction gs generalizing g t with
  | nil => rfl
  | cons g' gs ih =>
    rw [pinEdges, ih]
    rfl

theorem map_dur_txSegments (tm : TimingModel) (code : U64) (n : Nat) :
    (txSegments tm code n).map Segment.dur = (List.replicate n (code64Durations tm code)).flatten := by
  rw [txSegments, List.map_flatten, List.map_replicate, map_dur_repeatSegments]

theorem dropLast_flatten_replicate_succ {α : Type} {l : List α} (h : l ≠ []) (n : Nat) :
    (List.replicate (n + 1) l).flatten.dropLast = (List.replicate n l).flatten ++ l.dropLast := by
  rw [List.replicate_succ', List.flatten_append, List.flatten_singleton, List.dropLast_append_of_ne_nil h]

theorem codeBits_eq_take_append (c : U64) : codeBits c = (codeBits c).take 63 ++ [c.getLsbD 63] := by
  have hsplit : codeBits c = (List.range 63).map c.getLsbD ++ [c.getLsbD 63] := by
    rw [codeBits, List.range_succ, List.map_append, List.map_singleton]
  rw [hsplit, List.take_left' (by simp)]

/-- A call's burst without its last duration ends in the last bit's high phase. -/
theorem code64Durations_dropLast (c : U64) : (code64Durations Config.defaultTM c).dropLast =
    burstDurations ((codeBits c).take 63) ++ [(dataSymbol Config.defaultTM (c.getLsbD 63)).high.nom] := by
  have hlast (bs : List Bool) (b : Bool) : burstDurations (bs ++ [b]) = burstDurations bs
      ++ symbolDurations (dataSymbol Config.defaultTM b) := by
    simp [burstDurations, symbolDurations_dataSymbol]
  calc (code64Durations Config.defaultTM c).dropLast
      = (burstDurations ((codeBits c).take 63)
          ++ symbolDurations (dataSymbol Config.defaultTM (c.getLsbD 63))).dropLast := by
        rw [code64Durations_eq_burst, ← hlast, ← codeBits_eq_take_append]
    _ = burstDurations ((codeBits c).take 63)
          ++ (symbolDurations (dataSymbol Config.defaultTM (c.getLsbD 63))).dropLast :=
        List.dropLast_append_of_ne_nil (List.cons_ne_nil _ _)
    _ = _ := rfl

/-- The bursts of `n` repeats: each closes the frame before it. -/
theorem execAll_code64_repeats {s : State} (htm : s.tm = Config.defaultTM) (hring : s.ring.Inv) (c : U64) (n : Nat)
    (hroom : s.ring.frames.length + n ≤ 7) :
    ∃ t, execAll (edgesFrom s.dec.lastEdge (List.replicate n (code64Durations Config.defaultTM c)).flatten) s = .next t
      ∧ t.tm = Config.defaultTM ∧ t.ring.Inv ∧ t.ring.frames = s.ring.frames ++ List.replicate n (codeBits c) := by
  induction n generalizing s with
  | zero => exact ⟨s, rfl, htm, hring, by simp⟩
  | succ n ih =>
    have hawaits : AwaitsBurst s.ring.burstSlot s := ⟨htm, hring, s.ring.roomForBurst_iff.mpr (by omega), rfl⟩
    obtain ⟨u, hu, hburst, hframes⟩ := hawaits.execAll_code64 c
    obtain ⟨t, ht, htm', hring', hframes'⟩ := ih hburst.tm hburst.ring (by simp [hframes]; omega)
    refine ⟨t, ?_, htm', hring', ?_⟩
    · rw [List.replicate_succ, List.flatten_cons, execAll_edgesFrom_append_iff]
      exact ⟨u, hu, ht⟩
    · rw [hframes', hframes, List.append_assoc, List.replicate_succ, List.singleton_append]

/-- The last burst of a call, without the edge that would end its last bit. -/
theorem AwaitsBurst.execAll_code64_dropLast {k : SlotIdx} {s : State} (h : AwaitsBurst k s) (c : U64) :
    ∃ t, execAll (edgesFrom s.dec.lastEdge (code64Durations Config.defaultTM c).dropLast) s = .next t
      ∧ t.ring.queue = s.ring.frames ∧ t.ring.inProgress = (codeBits c).take 63 := by
  have hlen : ((codeBits c).take 63).length ≤ 128 := (List.length_take_le 63 _).trans (by decide)
  obtain ⟨t, ht, hburst, hqueue⟩ := h.execAll_burst hlen
  obtain ⟨u, hu⟩ :=
    exec_completes (.edge (t.dec.lastEdge + (dataSymbol Config.defaultTM (c.getLsbD 63)).high.nom)) t
  have hlow (b : Bool) : inWin (dataSymbol Config.defaultTM b).high.nom Config.defaultTM.sync.high = false := by
    cases b <;> decide
  have hrow (b : Bool) : classify Config.defaultTM .waitingForHigh (dataSymbol Config.defaultTM b).high.nom =
      (if b then .waitingForLowOne else .waitingForLowZero, none) := by
    cases b <;> decide
  have hlast := hburst.edge_none hlen (hlow _) (hrow _) hu
  refine ⟨u, ?_, ?_, hlast.bits⟩
  · rw [code64Durations_dropLast, execAll_edgesFrom_append_iff]
    exact ⟨t, ht, execAll_edgesFrom_cons_iff.mpr ⟨u, hu, rfl⟩⟩
  · obtain ⟨-, -, -, hring⟩ := exec_edge_next hu
    rw [hring, edgeEffect_queue_of_not_syncHigh (by rw [add_sub_cancel_left, hburst.tm]; exact hlow _), hqueue]

/-- The edges of the pin during a call: one at any time, then those of its durations but the last. -/
theorem pinEdges_txSegments (t : U32) (tm : TimingModel) (c : U64) (n : Nat) :
    (pinEdges t (txSegments tm c (n + 1))).map .edge = .edge t :: edgesFrom t
      ((List.replicate n (code64Durations tm c)).flatten ++ (code64Durations tm c).dropLast) := by
  have hne : code64Durations tm c ≠ [] := List.cons_ne_nil _ _
  have hsegments : txSegments tm c (n + 1) ≠ [] := by
    rw [txSegments_succ]
    exact List.cons_ne_nil _ _
  rw [pinEdges_eq t hsegments, map_dur_txSegments, dropLast_flatten_replicate_succ hne]
  rfl

/-- Settles O58: the first edge leaves at most one more frame than were queued, each repeat but the last adds the code, and
the last stays in progress. -/
theorem loopbackDeliversAllButTheLastRepeat : Obligations.LoopbackDeliversAllButTheLastRepeat := by
  intro s c rep t0 hs htm hrep hroom
  obtain ⟨n, rfl⟩ := Nat.exists_eq_add_of_le' hrep
  have hnf : s.ring.full = false := Ring.not_full_of_room (.inl (by omega))
  obtain ⟨u, hu⟩ := exec_completes (.edge t0) s
  obtain ⟨htm', -, hlastEdge, hring⟩ := exec_edge_next hu
  obtain ⟨leftover, hleftover, hframes⟩ := hs.ring.frames_after_edge (tm := s.tm) (dec := s.dec) (x := t0) hnf
  rw [← hring] at hframes
  have hlen : u.ring.frames.length ≤ s.ring.buffered + 1 := by
    rw [hframes, List.length_append, Ring.queue_length]
    omega
  obtain ⟨v, hv, hvtm, hvring, hvframes⟩ := execAll_code64_repeats (htm'.trans htm)
    (hring ▸ hs.ring.after_edge s.tm s.dec t0) c n (by omega)
  have hawaits : AwaitsBurst v.ring.burstSlot v := by
    refine ⟨hvtm, hvring, v.ring.roomForBurst_iff.mpr ?_, rfl⟩
    rw [hvframes, List.length_append, List.length_replicate]
    omega
  obtain ⟨w, hw, hqueue, hprogress⟩ := hawaits.execAll_code64_dropLast c
  refine ⟨w, leftover, ?_, hleftover, ?_, hprogress⟩
  · rw [pinEdges_txSegments, execAll_cons _ _ s u hu, ← hlastEdge, execAll_edgesFrom_append_iff]
    exact ⟨v, hv, hw⟩
  · rw [hqueue, hvframes, hframes, Nat.add_sub_cancel]

end Sys2Proof.Machine

namespace Sys2Proof.Machine

/-! PROOFS of the statement on STATUS (spec 45_status.md): the fields of its response and its repetition. -/

/-- A field of a word is the value whose bits stand there. -/
theorem extractLsb'_eq_of_getLsbD {r : RespWord} {start len : Nat} {v : BitVec len}
    (h : ∀ i < len, r.getLsbD (start + i) = v.getLsbD i) : r.extractLsb' start len = v := by
  apply BitVec.eq_of_getLsbD_eq
  intro i hi
  rw [BitVec.getLsbD_extractLsb', h i hi, decide_eq_true hi, Bool.true_and]

section status

variable (s : State)

/-- `dec_state` in bits 2:0. -/
theorem statusResponse_decState : (statusResponse s).extractLsb' 0 3 = s.dec.state.encoding :=
  extractLsb'_eq_of_getLsbD fun i hi => by
    rw [statusResponse_getLsbD s _ (by omega), if_pos (by omega), Nat.zero_add]

/-- `wr` in bits 5:3. -/
theorem statusResponse_wr : ((statusResponse s).extractLsb' 3 3).toNat = s.ring.wr.val := by
  have hfield : (statusResponse s).extractLsb' 3 3 = BitVec.ofNat 3 s.ring.wr.val :=
    extractLsb'_eq_of_getLsbD fun i hi => by
      rw [statusResponse_getLsbD s _ (by omega), if_neg (by omega), if_pos (by omega), Nat.add_sub_cancel_left]
  rw [hfield, BitVec.toNat_ofNat, Nat.mod_eq_of_lt s.ring.wr.isLt]

/-- `rd` in bits 8:6. -/
theorem statusResponse_rd : ((statusResponse s).extractLsb' 6 3).toNat = s.ring.rd.val := by
  have hfield : (statusResponse s).extractLsb' 6 3 = BitVec.ofNat 3 s.ring.rd.val :=
    extractLsb'_eq_of_getLsbD fun i hi => by
      rw [statusResponse_getLsbD s _ (by omega), if_neg (by omega), if_neg (by omega), if_pos (by omega),
        Nat.add_sub_cancel_left]
  rw [hfield, BitVec.toNat_ofNat, Nat.mod_eq_of_lt s.ring.rd.isLt]

/-- `tx_busy` in bit 9. -/
theorem statusResponse_busy : (statusResponse s).getLsbD 9 = s.enc.busy := statusResponse_getLsbD s 9 (by decide)

/-- `tx_pin` in bit 10. -/
theorem statusResponse_pin : (statusResponse s).getLsbD 10 = s.enc.pin := statusResponse_getLsbD s 10 (by decide)

/-- From bit 11 on the response holds `size[wr]`, and zeros above its 8 bits. -/
theorem statusResponse_getLsbD_of_eleven_le {n : Nat} (hle : 11 ≤ n) (hlt : n < 64) :
    (statusResponse s).getLsbD n = (s.ring.slots.frame s.ring.wr).size.getLsbD (n - 11) := by
  rw [statusResponse_getLsbD s n hlt, if_neg (by omega), if_neg (by omega), if_neg (by omega), if_neg (by omega),
    if_neg (by omega)]

/-- `size[wr]` in bits 18:11. -/
theorem statusResponse_size : (statusResponse s).extractLsb' 11 8 = (s.ring.slots.frame s.ring.wr).size :=
  extractLsb'_eq_of_getLsbD fun i hi => by
    rw [statusResponse_getLsbD_of_eleven_le s (by omega) (by omega), Nat.add_sub_cancel_left]

/-- Zero in bits 63:19. -/
theorem statusResponse_zero_above : (statusResponse s).extractLsb' 19 45 = 0#45 :=
  extractLsb'_eq_of_getLsbD fun i hi => by
    rw [statusResponse_getLsbD_of_eleven_le s (by omega) (by omega), BitVec.getLsbD_of_ge _ _ (by omega),
      BitVec.getLsbD_zero]

/-- The response is no part of the snapshot. -/
@[simp] theorem statusResponse_respond (r : RespWord) : statusResponse (s.respond r) = statusResponse s := rfl

/-- Repeating STATUS gives the same state, and so the same word (R58). -/
theorem exec_status_again :
    exec .status (s.respond (statusResponse s)) = .next (s.respond (statusResponse s)) := by
  rw [exec_status, statusResponse_respond]
  rfl

end status

/-- Settles O42: STATUS answers `statusResponse` and writes nothing else, so a second one answers the same. -/
theorem statusReportsTheControlState : Obligations.StatusReportsTheControlState := by
  intro s
  refine ⟨statusResponse s, exec_status s, exec_status_again s, ?_, statusResponse_wr s, statusResponse_rd s,
    statusResponse_busy s, statusResponse_pin s, statusResponse_size s, statusResponse_zero_above s⟩
  rw [statusResponse_decState]
  cases s.dec.state <;> rfl

end Sys2Proof.Machine

namespace Sys2Proof.Machine

/-! PROOFS of the statements on the exceptions (spec 60_exceptions.md): the conditions of the two faults, the reads that
break the consumer's protocol, the refusal of an illegal word, the idle block, and the moves at which a step stops. -/

/-! ### Faults -/

/-- The conditions of R201 and R203 belong to different commands, so no command meets both. -/
theorem consumerFaults_of_txFaults {s : State} {i : Instr} (h : txFaults s i = true) : consumerFaults s i = false := by
  cases i with
  | txStart c r => rfl
  | edge _ | rdAcquire | rdBit _ _ | rdWord _ _ | rdRelease _ | status => cases h

/-- Settles O39: the three clauses are the three cases of `exec_fault`, whose two conditions exclude each other. -/
theorem faultsExactlyUnderTheirConditions : Obligations.FaultsExactlyUnderTheirConditions := by
  intro i s t h
  rw [exec_fault h]
  refine ⟨fun hc => ?_, fun ht => ?_, fun hc ht => ?_⟩
  · simp [hc]
  · simp [consumerFaults_of_txFaults ht, ht]
  · simp [hc, ht]

section reads

variable {s : State} {k : SlotIdx} (h : s.ring.isHead k = false)
include h

theorem exec_rdBit_of_not_head (i : BitIdx) :
    exec (.rdBit k i) s = .next (s.raiseFault .consumerProtocol (.rdBit k i)) := by
  rw [exec_rdBit, h, if_neg Bool.false_ne_true]

theorem exec_rdWord_of_not_head (w : WordSel) :
    exec (.rdWord k w) s = .next (s.raiseFault .consumerProtocol (.rdWord k w)) := by
  rw [exec_rdWord, h, if_neg Bool.false_ne_true]

end reads

/-- Settles O38: the premise says that the slot is not the head, and `State.raiseFault` changes the fault list and the
response only. -/
theorem readsOutsideTheProtocolAreRecorded : Obligations.ReadsOutsideTheProtocolAreRecorded := by
  intro s k i w hout
  have hk : s.ring.isHead k = false := (s.ring.isHead_eq_false_iff k).mpr hout
  exact ⟨⟨_, exec_rdBit_of_not_head hk i⟩, ⟨_, exec_rdWord_of_not_head hk w⟩⟩

/-! ### Illegal words -/

theorem State.refuseIllegal_not_good (s : State) : s.refuseIllegal.good = false := by simp [State.good]

/-- Settles O13: a word that no row accepts decodes to an error, at which the step only sets `refused`. -/
theorem illegalWordOnlySetsRefused : Obligations.IllegalWordOnlySetsRefused := by
  intro s p w rest hs hrows
  have hreject (r : Row) (hr : r ∈ commandTable) : r.accepts w = false := by
    rw [← Bool.not_eq_true, r.accepts_iff]
    exact hrows r hr
  exact ⟨_, step_of_illegal hs (decode_of_no_row hreject), rfl, State.refuseIllegal_not_good _⟩

/-! ### Where a step stops -/

/-- Settles O14: `step_of_idle` for every state. -/
theorem idleBlockHoldsItsState : Obligations.IdleBlockHoldsItsState := fun _ => step_of_idle

theorem step_of_foreign_command {s : State} {p : Port} {w : CmdWord} {rest : List Event} {i : Instr}
    (h : s.schedule = .command p w :: rest) (hd : decode w = .command i) (hp : p.mayIssue i = false) :
    step s = .refused (.foreignCommand p) := by
  rw [step_of_command h hd, hp, if_neg Bool.false_ne_true]

/-- The next event is a move that no agent has, and `r` names it (log 3): TXSTEP while `tx_busy = 0` (R172), or a command
at a port whose agent does not issue it (R71). -/
def State.NextMoveHasNoAgent (s : State) (r : Refusal) : Prop :=
  (r = .txSequencerNotEnabled ∧ s.enc.busy = false ∧ ∃ rest, s.schedule = .txStep :: rest)
  ∨ ∃ p w i rest, r = .foreignCommand p ∧ s.schedule = .command p w :: rest ∧ decode w = .command i
      ∧ p.mayIssue i = false

/-- Every outcome of a step, by the next event: a next state, or the refusal of a move that no agent has. -/
theorem step_next_or_refused (s : State) :
    (∃ t, step s = .next t) ∨ ∃ r, step s = .refused r ∧ s.NextMoveHasNoAgent r := by
  rcases hs : s.schedule with _ | ⟨⟨p, w⟩ | _ | _ | ⟨le, bits⟩, rest⟩
  case nil =>
    cases hb : s.enc.busy
    · exact .inl ⟨_, step_of_idle hs hb⟩
    · exact .inl ⟨_, step_of_busy hs hb⟩
  case cons.command =>
    cases hd : decode w with
    | illegal e => exact .inl ⟨_, step_of_illegal hs hd⟩
    | command i =>
      cases hp : p.mayIssue i
      · exact .inr ⟨_, step_of_foreign_command hs hd hp, .inr ⟨p, w, i, rest, rfl, hs, hd, hp⟩⟩
      · rw [step_of_command hs hd, if_pos hp]
        exact .inl (exec_completes i _)
  case cons.txStep =>
    cases hb : s.enc.busy
    · exact .inr ⟨_, step_of_txStep_idle hs hb, .inl ⟨rfl, hb, rest, hs⟩⟩
    · exact .inl ⟨_, step_of_txStep hs hb⟩
  case cons.txRun =>
    cases hb : s.enc.busy
    · exact .inl ⟨_, step_of_txRun_idle hs hb⟩
    · exact .inl ⟨_, step_of_txRun hs hb⟩
  case cons.reset => exact .inl ⟨_, step_of_reset hs⟩

/-- Settles O15: every command answers a next state, and of the outcomes of a step none is a fault and the refused ones are
the moves that no agent has. -/
theorem commandsAlwaysComplete : Obligations.CommandsAlwaysComplete := by
  refine ⟨exec_completes, fun s f hf => ?_, fun s r hr => ?_⟩
  · rcases step_next_or_refused s with ⟨t, ht⟩ | ⟨r, hr, -⟩
    · simp [ht] at hf
    · simp [hr] at hf
  · rcases step_next_or_refused s with ⟨t, ht⟩ | ⟨r', hr', hmove⟩
    · simp [ht] at hr
    · obtain rfl : r' = r := by simpa [hr'] using hr
      exact hmove

end Sys2Proof.Machine

namespace Sys2Proof.Machine

/-! PROOFS of the statement on reset and hazards (spec 70_reset_and_hazards.md): the step on the reset input. -/

/-- Settles O2: the step is `State.applyReset` of the state with the reset event consumed, which by definition takes from
that state only `TM` and the events still to come. -/
theorem resetInputGivesResetStateAndKeepsTM : Obligations.ResetInputGivesResetStateAndKeepsTM :=
  fun _ _ _ _ h => step_of_reset h

end Sys2Proof.Machine
